-- ==== Sys2Proof/Word.lean ====
section
/-! DEFINITION. The words of the record core: bytes and response words (spec 00_scope.md R7, 30_encoding.md R58). -/

namespace Sys2Proof

/-- A byte: an unsigned value `0 .. 255` (R7). Cells, payload bytes and checksums are bytes. -/
abbrev Byte := BitVec 8

/-- A response word: 16 bits, `{zero[5:0], status[1:0], result[7:0]}` (R58). -/
abbrev ResponseWord := BitVec 16

end Sys2Proof
end

