-- ==== Sys2Proof/Config.lean ====
section
/-! DEFINITION. What an implementation fixes (spec 00_scope.md R6): the widths and the other parameters of a machine, and the
free values that the spec leaves unspecified (60_exceptions.md R106). -/

namespace Sys2Proof

/-- The widths that an implementation chooses (R6). Every rule is written over them (log entry 1). -/
structure Widths where
  /-- `AW`, the width in bits of a store address. -/
  aw : Nat
  /-- `SW`, the width in bits of the size operand. -/
  sw : Nat
  deriving DecidableEq, Repr

/-- `CW = 2 + SW + AW`, the width of the command word (R6, R50). -/
def Widths.cw (W : Widths) : Nat := 2 + W.sw + W.aw

/-- `2^AW - 1`, the last address of the store port (R56). -/
def Widths.lastAddress (W : Widths) : Nat := 2 ^ W.aw - 1

/-- R6's constraints on the widths. -/
abbrev Widths.Legal (W : Widths) : Prop := 2 ≤ W.aw ∧ 1 ≤ W.sw ∧ W.sw ≤ W.aw ∧ 16 ≤ W.sw + W.aw

/-- The default instance: `AW = 16`, `SW = 14`, so `CW = 32` (R6). -/
def Widths.defaultInstance : Widths := ⟨16, 14⟩

/-- `TORN_BYTE`: what a cell holds when power is lost during the write to it (R6, R106). -/
inductive TornByte where
  /-- Every store write is all or nothing; power is lost between micro-steps only (the spec's default). -/
  | atomic
  /-- The cell being written may end with any byte. -/
  | any
  deriving DecidableEq, Repr

/-- The parameters of a machine that the spec leaves open and that no step changes (R6, R25). They stand in
State so that a statement over all states holds for every choice of them (log entries 1, 5 and 6). -/
structure Params where
  /-- `AW` and `SW` (R6, D3). -/
  widths : Widths
  /-- `STORE_SIZE`: the attached store implements addresses `0 .. storeSize - 1` (R6, D21). -/
  storeSize : Nat
  /-- `TORN_BYTE` (R6, D18). -/
  tornByte : TornByte
  deriving DecidableEq, Repr

/-- R6's constraints on the parameters; of `STORE_SIZE`: `1 <= STORE_SIZE <= 2^AW`. -/
abbrev Params.Legal (p : Params) : Prop :=
  p.widths.Legal ∧ 1 ≤ p.storeSize ∧ p.storeSize ≤ 2 ^ p.widths.aw

/-- FREE VALUE: what `ACC` holds after the `n`-th power loss, "unspecified" in R106 (log entry 3). -/
opaque Config.unspecifiedAcc : Nat → BitVec 8

/-- FREE VALUE: what `ADDR` holds after the `n`-th power loss, of which the register keeps `AW` bits (R106, log entry 3). -/
opaque Config.unspecifiedAddr : Nat → Nat

/-- FREE VALUE: what `SIZE` holds after the `n`-th power loss, of which the register keeps `SW` bits (R106, log entry 3). -/
opaque Config.unspecifiedSize : Nat → Nat

/-- FREE VALUE: what `IDX` holds after the `n`-th power loss, of which the register keeps `SW` bits (R106, log entry 3). -/
opaque Config.unspecifiedIdx : Nat → Nat

/-- FREE VALUE: what `TMP` holds after the `n`-th power loss (R106, log entry 3). -/
opaque Config.unspecifiedTmp : Nat → BitVec 8

end Sys2Proof
end

