-- ==== Sys2Proof/Machine/Operands.lean ====
section
/-! DEFINITION. The operand forms: the legality of a record command's operands (spec 30_encoding.md R56) and the
three store addresses a micro-step can form (20_memory.md R40, 40_crc8_engine.md R76). -/

namespace Sys2Proof.Machine

/-- R56's operand condition of the record commands, in integer arithmetic without wrap: `size >= 1` and
`addr + size + 1 <= 2^AW - 1`; and `size <= 2^SW - 1`, which R61 says of the operand and every `size` field meets (R51). -/
def legalOperands (W : Widths) (addr size : Nat) : Bool :=
  decide (1 ≤ size) && decide (size < 2 ^ W.sw) && decide (addr + size + 1 ≤ W.lastAddress)

/-- The store address of the leading guard byte (R40). -/
def leadAddr (addr : Nat) : Nat := addr

/-- The store address of payload byte `idx`: `ADDR + 1 + IDX` (R14, R40). -/
def payloadAddr (addr idx : Nat) : Nat := addr + 1 + idx

/-- The store address of the trailing guard byte: `ADDR + SIZE + 1` (R40). -/
def trailAddr (addr size : Nat) : Nat := addr + size + 1

end Sys2Proof.Machine
end

