-- ==== Sys2Proof/Syntax.lean ====
section
/-! DEFINITION. The commands of the record core: one constructor for each row of spec/opcode_table.json
(30_encoding.md R53). -/

namespace Sys2Proof

/-- A command word, read (R53). A record command's operands are the unsigned integers of its fields (R54); how wide the fields
are is the machine's choice of widths, so which integers have a word is `Instr.fitsRow`'s to say. The operand order is the
spec's own, `addr, size` (R61, 90_conflicts.md C2). -/
inductive Instr where
  /-- `CRCUPD acc, data` (R73). -/
  | crcupd (acc data : Byte)
  /-- `WRREC addr, size` (R80). -/
  | wrrec (addr size : Nat)
  /-- `RDREC addr, size` (R90). -/
  | rdrec (addr size : Nat)
  /-- The table's row `(reserved)`: a word that matches no other row of the map, with all its bits (R53, R57). -/
  | reserved (word : Nat)
  deriving DecidableEq, Repr

end Sys2Proof
end

