-- ==== Sys2Proof/WellFormed.lean ====
section
/-! DEFINITION. When a command is well-formed on a machine of given widths: it fits its row of spec/opcode_table.json, and its
operands meet the row's constraints (30_encoding.md R53, R55, R56). -/

namespace Sys2Proof

/-- The command has a word of its own row. The operands of a record command fit their fields (R51). A reserved word matches no
other row (R53): it has `op = 00`, or `op = 01` with a `zero` field that is not 0, and then it is at least `2^16` above the
first `op = 01` word (R52). -/
def Instr.fitsRow (W : Widths) : Instr → Bool
  | .crcupd _ _ => true
  | .wrrec addr size => decide (addr < 2 ^ W.aw) && decide (size < 2 ^ W.sw)
  | .rdrec addr size => decide (addr < 2 ^ W.aw) && decide (size < 2 ^ W.sw)
  | .reserved w =>
    decide (w < 2 ^ (W.sw + W.aw))
      || (decide (2 ^ (W.sw + W.aw) + 2 ^ 16 ≤ w) && decide (w < 2 * 2 ^ (W.sw + W.aw)))

/-- The operands meet the constraints the table gives the row (R56). -/
def Instr.operandsLegal (W : Widths) : Instr → Bool
  | .crcupd _ _ => true
  | .wrrec addr size => Machine.legalOperands W addr size
  | .rdrec addr size => Machine.legalOperands W addr size
  | .reserved _ => true

/-- A well-formed command: it fits its row and meets the row's constraints. A record command with illegal operands that fit
their fields is not well-formed; it still has a word, and the core answers it with ILLEGAL (R57). -/
def Instr.wellFormed (W : Widths) (i : Instr) : Bool := i.fitsRow W && i.operandsLegal W

end Sys2Proof
end

