-- ==== Sys2Proof/Decode.lean ====
section
/-! DEFINITION. Reading a command word, and writing one (spec 30_encoding.md R50 to R57), on a machine of any widths (R6). A word
is a number; the channel carries `CW` bits of it, so nothing here reads a higher bit (log entry 21). The map is total: every word
is a command of some row (R53). -/

namespace Sys2Proof

/-- `op = cmd[CW-1:CW-2]`, two bits (R51, R52). -/
def opField (W : Widths) (cmd : Nat) : Nat := cmd / 2 ^ (W.sw + W.aw) % 4

/-- `size = cmd[CW-3:AW]` of format R, `SW` bits (R51). -/
def sizeField (W : Widths) (cmd : Nat) : Nat := cmd / 2 ^ W.aw % 2 ^ W.sw

/-- `addr = cmd[AW-1:0]` of format R (R51). -/
def addrField (W : Widths) (cmd : Nat) : Nat := cmd % 2 ^ W.aw

/-- `zero = cmd[CW-3:16]` of format C: `CW - 18` bits, absent (so 0) when `CW = 18` (R52). -/
def zeroField (W : Widths) (cmd : Nat) : Nat := cmd / 2 ^ 16 % 2 ^ (W.sw + W.aw - 16)

/-- `acc = cmd[15:8]` of format C (R52). -/
def accField (cmd : Nat) : Byte := BitVec.ofNat 8 (cmd / 2 ^ 8)

/-- `data = cmd[7:0]` of format C (R52). -/
def dataField (cmd : Nat) : Byte := BitVec.ofNat 8 cmd

/-- The command a word is (R53). A word of a record row keeps its row whatever its operands are (95_test_vectors.md
V6 reads `0x8000000A` as `WRREC 10, 0`); R56 is checked when the word is accepted (R80, R90). That a word with `op = 01` outside
the CRCUPD match is carried by the constructor `reserved` is the model's choice. Both: log entry 12. -/
def decode (W : Widths) (cmd : Nat) : Instr :=
  if opField W cmd = 1 then
    if zeroField W cmd = 0 then .crcupd (accField cmd) (dataField cmd) else .reserved (cmd % 2 ^ W.cw)
  else if opField W cmd = 2 then .wrrec (addrField W cmd) (sizeField W cmd)
  else if opField W cmd = 3 then .rdrec (addrField W cmd) (sizeField W cmd)
  else .reserved (cmd % 2 ^ W.cw)

/-- R56's predicate `legal(cmd)`, on the word. -/
def legal (W : Widths) (cmd : Nat) : Bool :=
  (decide (opField W cmd = 1) && decide (zeroField W cmd = 0))
    || ((decide (opField W cmd = 2) || decide (opField W cmd = 3))
      && decide (1 ≤ sizeField W cmd)
      && decide (addrField W cmd + sizeField W cmd + 1 ≤ W.lastAddress))

/-! ## Bits on the channel, and the encoder -/

/-- Why bits offered on the command channel are no command word. -/
inductive DecodeReject where
  /-- More than `CW` bits: "One word, one length, one decoding" (R60). Safe: nothing runs. -/
  | notOneCommandWord
  deriving DecidableEq, Repr

/-- Reading `nbits` bits off the command channel. Bits of the word above `nbits` are 0; more than `CW` bits are no
command word (R60, log entry 21). -/
def decodeBits (W : Widths) (nbits w : Nat) : Except DecodeReject Instr :=
  if nbits ≤ W.cw then .ok (decode W (w % 2 ^ nbits)) else .error .notOneCommandWord

/-- The host's question: the instruction read from `nbits` bits that are `w`, on the default instance, for which
spec/opcode_table.json gives its encodings (R6). -/
def decodeTableWord (nbits w : Nat) : Option Instr :=
  match decodeBits .defaultInstance nbits w with
  | .ok i => some i
  | .error _ => none

/-- The word with these three fields side by side, `op` in the top two bits (R51). -/
def wordOf (W : Widths) (op size addr : Nat) : Nat := op * 2 ^ (W.sw + W.aw) + size * 2 ^ W.aw + addr

/-- The word of a command that fits its row (R51, R52). A command that does not has no word: `fitsRow` is asked before the host
issues one (Machine/DocumentCalls.lean; the textual syntax takes operands that fit only). -/
def encode (W : Widths) : Instr → Nat
  | .crcupd acc data => 2 ^ (W.sw + W.aw) + acc.toNat * 2 ^ 8 + data.toNat
  | .wrrec addr size => wordOf W 2 size addr
  | .rdrec addr size => wordOf W 3 size addr
  | .reserved w => w

end Sys2Proof
end

