-- ==== Sys2Proof/Machine/Crc.lean ====
section
/-! DEFINITION. The CRC8 polynomial engine (spec 40_crc8_engine.md R70, R72; constants 00_scope.md R5). -/

namespace Sys2Proof.Machine

/-- `POLY = 0x8C` (R5). -/
def crcPoly : Byte := 0x8C

/-- `ITER = 8`, the iterations of one CRC step (R5). -/
def crcIterations : Nat := 8

/-- `INIT = 0x00`, the starting accumulator of a fold (R5). -/
def crcInit : Byte := 0x00

/-- One iteration of R70 on the working values `(a, d)`: test the low bit of `a xor d`, shift both right logically,
then apply the constant to the already shifted accumulator (D10, D11). -/
def crcIteration (a d : Byte) : Byte × Byte :=
  let t := (a ^^^ d).getLsbD 0
  let a := a >>> 1
  let d := d >>> 1
  (if t then a ^^^ crcPoly else a, d)

/-- `n` iterations of R70. -/
def crcIterate : Nat → Byte × Byte → Byte × Byte
  | 0, p => p
  | n + 1, p => crcIterate n (crcIteration p.1 p.2)

/-- `crc8_update(acc, inp)` (R70): a function of its two arguments and of nothing else. -/
def crc8Update (acc inp : Byte) : Byte := (crcIterate crcIterations (acc, inp)).1

/-- `CRC8(seq)` (R72): the left-to-right fold from `0x00`; no final xor. -/
def crc8 (bytes : List Byte) : Byte := bytes.foldl crc8Update crcInit

end Sys2Proof.Machine
end

