-- ==== Sys2Proof/Machine/Flags.lean ====
section
/-! DEFINITION. The core has no flags (spec 10_state.md R19); the outcome of a command is the status of its one response
word (30_encoding.md R58, R59). -/

namespace Sys2Proof.Machine

/-- The status of a response. The fourth code, `11`, is never produced (R59). -/
inductive Status where
  /-- The command did what its rule says. -/
  | ok
  /-- A guard byte did not match; RDREC only. -/
  | verifyFail
  /-- The word was not a legal command; nothing was done. -/
  | illegal
  deriving DecidableEq, Repr

/-- The 2-bit status codes (R59). -/
def Status.code : Status → BitVec 2
  | .ok => 0b00#2
  | .verifyFail => 0b01#2
  | .illegal => 0b10#2

/-- The response word `{000000, status, result}` (R58). -/
def responseWord (status : Status) (result : Byte) : ResponseWord := 0#6 ++ status.code ++ result

/-- Bits 9:8 of a response word (R58). -/
def responseStatus (r : ResponseWord) : BitVec 2 := r.extractLsb' 8 2

/-- Bits 7:0 of a response word (R58). -/
def responseResult (r : ResponseWord) : Byte := r.extractLsb' 0 8

/-- The two kinds of VERIFY_FAIL, labels for a model's internal use that never appear on an interface (R101,
R102). -/
inductive MismatchKind where
  /-- `LeadingChecksumMismatch`, raised in `R_LEAD`. -/
  | leadingChecksumMismatch
  /-- `TrailingChecksumMismatch`, raised in `R_TRAIL`. -/
  | trailingChecksumMismatch
  deriving DecidableEq, Repr

end Sys2Proof.Machine
end

