-- ==== Sys2Proof/Machine/State.lean ====
section
/-! DEFINITION. The state of a complete model (spec 10_state.md R27): the core's six registers, the store, the host's
buffers; the two channels; the parameters; and the moves of the two other agents, as plain data. -/

namespace Sys2Proof.Machine

/-- `PHASE`: the sequencer, in place of a program counter; ten names (R16). -/
inductive Phase where
  /-- Code 0: a command may be accepted. -/
  | idle
  /-- Code 1: reads the store at `ADDR` into `TMP`. -/
  | wRdold
  /-- Code 2: writes `TMP` to `ADDR+SIZE+1`. -/
  | wPlace
  /-- Code 3: writes payload byte `IDX`, folds it. -/
  | wPayload
  /-- Code 4: writes `ACC` to `ADDR`. -/
  | wLead
  /-- Code 5: writes `~ACC` to `ADDR+SIZE+1`, responds. -/
  | wTrail
  /-- Code 8: reads payload byte `IDX`, folds it. -/
  | rFold
  /-- Code 9: reads `ADDR`, compares with `ACC`. -/
  | rLead
  /-- Code 10: reads `ADDR+SIZE+1`, compares with `~ACC`. -/
  | rTrail
  /-- Code 11: reads payload byte `IDX`, writes it to the destination. -/
  | rCopy
  deriving DecidableEq, Repr

/-- One access to the store or a buffer, as the access history records it (R49). -/
inductive Access where
  /-- `MemRead(address, 1)` returned `value` (R31). -/
  | storeRead (address : Nat) (value : Byte)
  /-- `MemWrite(address, 1, value)` (R32). -/
  | storeWrite (address : Nat) (value : Byte)
  /-- `SrcRead(index)` returned `value` (R35). -/
  | srcRead (index : Nat) (value : Byte)
  /-- `DstWrite(index, value)` (R36). -/
  | dstWrite (index : Nat) (value : Byte)
  deriving DecidableEq, Repr

/-- A move of the host (R10, R27). The host has no move that writes the store (93 U1). -/
inductive HostMove where
  /-- Presents a command word on the command channel, which carries `CW` bits of it (R20, log entry 21); accepted when the core
  is idle (R18). -/
  | issue (word : Nat)
  /-- `SRC = [...]`: gives the source buffer its bytes, between commands (R61, R126). -/
  | setSource (bytes : List Byte)
  /-- `DST = [...]`: gives the destination buffer its bytes, between commands (R61, R126). -/
  | setDest (bytes : List Byte)
  deriving DecidableEq, Repr

/-- A power loss to come (R106): how many steps are taken before it, and the byte that the cell being written gets
under `TORN_BYTE = any` (`none`: it is not spoiled). -/
structure PowerCut where
  after : Nat
  torn : Option Byte
  deriving DecidableEq, Repr

/-- The byte store's contents: (address, byte) pairs, addresses rising, no pair equal to what an unlisted address
reads as. -/
abbrev Memory := List Host.Cell

/-- The state of the complete model (R27). INVENTORY.md lists each field with its rule and its reset value. -/
structure State where
  /-- `PHASE` (R16). -/
  phase : Phase
  /-- `ACC` (R11). -/
  acc : Byte
  /-- `ADDR` (R12): the unsigned integer its `AW` bits hold (log entry 1). -/
  addr : Nat
  /-- `SIZE` (R13): the unsigned integer its `SW` bits hold (log entry 1). -/
  size : Nat
  /-- `IDX` (R14): the unsigned integer its `SW` bits hold (log entry 1). -/
  idx : Nat
  /-- `TMP` (R15). -/
  tmp : Byte
  /-- The store (R30). -/
  store : Memory
  /-- `SRC` (R35). -/
  src : List Byte
  /-- `DST` (R36). -/
  dst : List Byte
  /-- The response words emitted, oldest first (R58, log entry 9). -/
  responses : List ResponseWord
  /-- The accesses made, oldest first (R49, log entry 10). -/
  history : List Access
  /-- The host's moves to come (R10, log entry 7). -/
  hostMoves : List HostMove
  /-- The power losses to come, each counted from the one before (R106, log entry 8). -/
  powerCuts : List PowerCut
  /-- How many power losses have drawn unspecified register values (R106, log entry 3). -/
  draws : Nat
  /-- The parameters, changed by no step (R6, log entries 1, 5 and 6). -/
  params : Params
  deriving DecidableEq, Repr

/-- The reasons for which the CORE stops with a fault: there are none. "the core has no fault outcome of its own"
(R100; log entry 18). -/
inductive Fault where
  deriving DecidableEq, Repr

/-- The situations in which the MODEL refuses a run (93_implementation_defined.md). -/
inductive Refusal where
  /-- Raised by `exec` for an instruction that has no meaning. No arm of `exec` raises it. Safe. -/
  | notModelled (mnemonic : String)
  /-- Raised by a store access at an address `>= STORE_SIZE`: "a model has no value for it and refuses the run"
  (R42, U3). Safe: the model says nothing of such a run. -/
  | outsideStore (address : Nat)
  /-- Raised by `SrcRead(index)` past the end of the host's source buffer, which the contract gives `size` bytes
  (R35, U5). Safe. -/
  | sourceTooShort (index : Nat)
  /-- Raised by `DstWrite(index)` past the end of the host's destination buffer, which the contract gives room for
  `size` bytes (R36, R129, U5). Safe. -/
  | destinationTooShort (index : Nat)
  deriving DecidableEq, Repr

/-- The outcome of one step. -/
abbrev Step := Host.Outcome State Fault Refusal

/-- The machine right after the first power-up (R24, R120): `PHASE = IDLE`, no response. The data registers are
"unspecified" there: DESIGN CHOICE 0 (log entry 2). The store lists nothing (log entry 4), the buffers are empty
(log entry 15), the host and the power environment have no move planned (log entries 7 and 8). The widths are the default
instance's (R6, log entry 1); `STORE_SIZE = 65536` (DESIGN CHOICE, log entry 5); `TORN_BYTE = atomic`, the spec's default
(R6). -/
def State.reset : State where
  phase := .idle
  acc := 0
  addr := 0
  size := 0
  idx := 0
  tmp := 0
  store := []
  src := []
  dst := []
  responses := []
  history := []
  hostMoves := []
  powerCuts := []
  draws := 0
  params := ⟨.defaultInstance, 65536, .atomic⟩

end Sys2Proof.Machine
end

