-- ==== Sys2Proof/Machine/Ops.lean ====
section
/-! DEFINITION. The named operations over the store, the buffers, the registers and the response channel (spec
00_scope.md R9), and the operations shared by the commands. The core takes no exception (60_exceptions.md R100, R108,
R109): what stands in its place is the response of an illegal command (R57) and the power loss (Machine/Power.lean). -/

namespace Sys2Proof.Machine

/-! ## The store's contents -/

/-- What a cell that nothing has written reads as. `STORE_INIT` is open (R6, D20): DESIGN CHOICE `0xFF`, log entry 4.
Any other contents are a store that lists them. -/
def Memory.unlisted : Byte := 0xFF

/-- The byte a store's contents hold at an address. -/
def Memory.read : Memory → Nat → Byte
  | [], _ => Memory.unlisted
  | (b, v) :: m, a => if a = b then v else Memory.read m a

/-- The contents after the cell at `a` becomes `v` (R32), in canonical form again. -/
def Memory.write : Memory → Nat → Byte → Memory
  | [], a, v => if v = Memory.unlisted then [] else [(a, v)]
  | (b, w) :: m, a, v =>
    if a < b then (if v = Memory.unlisted then (b, w) :: m else (a, v) :: (b, w) :: m)
    else if a = b then (if v = Memory.unlisted then m else (a, v) :: m)
    else (b, w) :: Memory.write m a v

/-- The canonical form: addresses strictly rising, and no pair equal to what an unlisted address reads as. -/
def Memory.wf : Memory → Bool
  | [] => true
  | (a, v) :: m => m.all (fun c => decide (a < c.1)) && !decide (v = Memory.unlisted) && Memory.wf m

/-- Every listed address is below `n`. -/
def Memory.below (m : Memory) (n : Nat) : Bool := m.all fun c => decide (c.1 < n)

/-! ## Register and channel updates -/

/-- `PHASE <- p`. -/
def State.enter (s : State) (p : Phase) : State := { s with phase := p }

/-- `TMP <- b`. -/
def State.latch (s : State) (b : Byte) : State := { s with tmp := b }

/-- `ACC <- crc8_update(ACC, b)` (R74). -/
def State.fold (s : State) (b : Byte) : State := { s with acc := crc8Update s.acc b }

/-- `IDX <- IDX + 1` (R14). -/
def State.advance (s : State) : State := { s with idx := s.idx + 1 }

/-- `IDX <- 0`. -/
def State.rewind (s : State) : State := { s with idx := 0 }

/-- `ADDR <- addr; SIZE <- size; ACC <- 0x00; IDX <- 0; PHASE <- p`: the acceptance of a legal record command (R80,
R90). -/
def State.accept (s : State) (addr size : Nat) (p : Phase) : State :=
  { s with addr := addr, size := size, acc := crcInit, idx := 0, phase := p }

/-- One access is recorded (R49). -/
def State.note (s : State) (a : Access) : State := { s with history := s.history ++ [a] }

/-- The store's contents become `m`. -/
def State.putStore (s : State) (m : Memory) : State := { s with store := m }

/-- The source buffer becomes `bytes`: a move of the host. -/
def State.putSrc (s : State) (bytes : List Byte) : State := { s with src := bytes }

/-- The destination buffer becomes `bytes`. -/
def State.putDst (s : State) (bytes : List Byte) : State := { s with dst := bytes }

/-- The host's moves to come become `ms`. -/
def State.putMoves (s : State) (ms : List HostMove) : State := { s with hostMoves := ms }

/-- The power losses to come become `cs`. -/
def State.putCuts (s : State) (cs : List PowerCut) : State := { s with powerCuts := cs }

/-- `respond(status, result)`: one response word on the response channel (R58). The host takes it at once (D23). -/
def State.respond (s : State) (status : Status) (result : Byte) : State :=
  { s with responses := s.responses ++ [responseWord status result] }

/-! ## Outputs -/

/-- `cmd_ready = (PHASE = IDLE)` (R18). -/
def State.cmdReady (s : State) : Bool := decide (s.phase = .idle)

/-- `busy = (PHASE != IDLE)` (R18). -/
def State.busy (s : State) : Bool := !decide (s.phase = .idle)

/-- The 4-bit code of a phase; observable on no interface (R16). -/
def Phase.code : Phase → BitVec 4
  | .idle => 0
  | .wRdold => 1
  | .wPlace => 2
  | .wPayload => 3
  | .wLead => 4
  | .wTrail => 5
  | .rFold => 8
  | .rLead => 9
  | .rTrail => 10
  | .rCopy => 11

/-! ## The accesses of a micro-step -/

/-- `MemRead(a, 1)` (R31), then `k` with the byte. An address the store does not implement has no value (R42, U3). -/
def readStore (a : Nat) (s : State) (k : Byte → State → Step) : Step :=
  if a < s.params.storeSize then k (Memory.read s.store a) (s.note (.storeRead a (Memory.read s.store a)))
  else .refused (.outsideStore a)

/-- `MemWrite(a, 1, v)` (R32), then `k`. The write is made whatever the cell holds. -/
def writeStore (a : Nat) (v : Byte) (s : State) (k : State → Step) : Step :=
  if a < s.params.storeSize then k ((s.putStore (Memory.write s.store a v)).note (.storeWrite a v))
  else .refused (.outsideStore a)

/-- `SrcRead(i)` (R35), then `k` with the byte. -/
def readSource (i : Nat) (s : State) (k : Byte → State → Step) : Step :=
  match s.src[i]? with
  | some b => k b (s.note (.srcRead i b))
  | none => .refused (.sourceTooShort i)

/-- `DstWrite(i, v)` (R36), then `k`. -/
def writeDest (i : Nat) (v : Byte) (s : State) (k : State → Step) : Step :=
  if i < s.dst.length then k ((s.putDst (s.dst.set i v)).note (.dstWrite i v))
  else .refused (.destinationTooShort i)

/-! ## What the commands share -/

/-- A command is accepted only in a state where `cmd_ready` holds; presented while busy "it simply is not accepted
until the core is idle again" (R18): the state stays as it is (log entry 13). -/
def whenReady (s : State) (k : State → Step) : Step := if s.cmdReady then k s else .next s

/-- The effect of an illegal command (R57): `respond(ILLEGAL, 0x00)`, and nothing else. -/
def respondIllegal (s : State) : Step := .next (s.respond .illegal 0)

/-- The end of a failed RDREC: `respond(VERIFY_FAIL, 0x00); PHASE <- IDLE` (R92, R93). The kind is a label that
appears on no interface (R102). -/
def failVerify (_kind : MismatchKind) (s : State) : Step := .next ((s.respond .verifyFail 0).enter .idle)

/-! ## The persisted record -/

/-- The `size` bytes at `addr + 1 ..` (R40, R41). -/
def payloadOf (m : Memory) (addr size : Nat) : List Byte :=
  (List.range size).map fun i => Memory.read m (addr + 1 + i)

/-- R41's valid record of size `size` at `addr`: the leading byte is the checksum of the payload and the trailing byte
its complement. -/
abbrev ValidRecord (m : Memory) (addr size : Nat) : Prop :=
  Memory.read m addr = crc8 (payloadOf m addr size) ∧
    Memory.read m (addr + size + 1) = ~~~(crc8 (payloadOf m addr size))

end Sys2Proof.Machine
end

