-- ==== Sys2Proof/Machine/Channel.lean ====
section
/-! DEFINITION. The host's side of the command channel and its buffers (spec 10_state.md R10, R18, R20; 30_encoding.md
R61), which takes the place of an instruction fetch (R16). -/

namespace Sys2Proof.Machine

/-- The command word on the channel, if the host's next move presents one, and the state once it is taken off. -/
def presented (s : State) : Option (Nat × State) :=
  match s.hostMoves with
  | .issue w :: ms => some (w, s.putMoves ms)
  | _ => none

/-- The host's next move when it presents no command: it gives a buffer its bytes, or has nothing more to do, and then
nothing changes (R116, R135, log entry 17). The core is idle here: the host has no such move during a command (U5). -/
def hostMove (s : State) : State :=
  match s.hostMoves with
  | .setSource bytes :: ms => (s.putSrc bytes).putMoves ms
  | .setDest bytes :: ms => (s.putDst bytes).putMoves ms
  | _ => s

/-- The host presents the word `w` next, before its other moves. -/
def State.issue (s : State) (w : Nat) : State := s.putMoves (.issue w :: s.hostMoves)

/-- The host presents exactly `w` next, the core is ready, and power stays on: the next step accepts `w`. -/
def State.presenting (s : State) (w : Nat) : State := ((s.issue w).putCuts []).enter .idle

end Sys2Proof.Machine
end

