-- ==== Sys2Proof/Machine/Crcupd.lean ====
section
/-! DEFINITION. The CRCUPD command (spec 40_crc8_engine.md R73). -/

namespace Sys2Proof.Machine

/-- `CRCUPD acc, data`: `respond(OK, crc8_update(acc, data))`, one atomic step that reads the command word only and
changes no register (R73). -/
def execCrcupd (acc data : Byte) (s : State) : Step :=
  whenReady s fun s => .next (s.respond .ok (crc8Update acc data))

end Sys2Proof.Machine
end

