-- ==== Sys2Proof/Machine/Rdrec.lean ====
section
/-! DEFINITION. The RDREC command: its acceptance and the four kinds of micro-step of the record read-verify controller
(spec 42_read_verify.md R90 to R94): verify, and only then copy. -/

namespace Sys2Proof.Machine

/-- `RDREC addr, size`: acceptance, one atomic step with no store access (R90); operands that fail R56 are answered
ILLEGAL (R57). The micro-steps below follow, one a step. -/
def execRdrec (addr size : Nat) (s : State) : Step :=
  whenReady s fun s => if legalOperands s.params.widths addr size then .next (s.accept addr size .rFold) else respondIllegal s

/-- `R_FOLD`: payload cell `IDX` is read and folded; the byte is kept nowhere (R91). -/
def microRFold (s : State) : Step :=
  readStore (payloadAddr s.addr s.idx) s fun b s =>
    .next ((s.fold b).advance.enter (if s.idx + 1 = s.size then .rLead else .rFold))

/-- `R_LEAD`: the byte at `ADDR` against `ACC`; a mismatch ends the command before the trailing byte is read (R92). -/
def microRLead (s : State) : Step :=
  readStore (leadAddr s.addr) s fun b s =>
    if b = s.acc then .next (s.enter .rTrail) else failVerify .leadingChecksumMismatch s

/-- `R_TRAIL`: the byte at `ADDR + SIZE + 1` against `~ACC` (R93). -/
def microRTrail (s : State) : Step :=
  readStore (trailAddr s.addr s.size) s fun b s =>
    if b = ~~~s.acc then .next (s.rewind.enter .rCopy) else failVerify .trailingChecksumMismatch s

/-- `R_COPY`: payload cell `IDX` is read again and written to the destination buffer; the response `OK` comes with the
last byte (R94). -/
def microRCopy (s : State) : Step :=
  readStore (payloadAddr s.addr s.idx) s fun b s =>
    writeDest s.idx b s fun s =>
      .next (if s.idx + 1 = s.size then (s.advance.respond .ok 0).enter .idle else s.advance)

end Sys2Proof.Machine
end

