-- ==== Sys2Proof/Machine/Reserved.lean ====
section
/-! DEFINITION. A reserved command word (spec 30_encoding.md R55, R57). -/

namespace Sys2Proof.Machine

/-- A word that matches no row of the three commands: accepted, and answered `respond(ILLEGAL, 0x00)`; the answer does
not depend on the word (R57). -/
def execReserved (_word : Nat) (s : State) : Step := whenReady s respondIllegal

end Sys2Proof.Machine
end

