-- ==== Sys2Proof/Machine/Wrrec.lean ====
section
/-! DEFINITION. The WRREC command: its acceptance and the five kinds of micro-step of the record write-frame controller
(spec 41_write_frame.md R80 to R85, "in this exact order"). -/

namespace Sys2Proof.Machine

/-- `WRREC addr, size`: acceptance, one atomic step with no store access (R80); operands that fail R56 are answered
ILLEGAL (R57). The micro-steps below follow, one a step. -/
def execWrrec (addr size : Nat) (s : State) : Step :=
  whenReady s fun s => if legalOperands s.params.widths addr size then .next (s.accept addr size .wRdold) else respondIllegal s

/-- `W_RDOLD`: `TMP <- MemRead(ADDR, 1); PHASE <- W_PLACE` (R81). -/
def microWRdold (s : State) : Step :=
  readStore (leadAddr s.addr) s fun b s => .next ((s.latch b).enter .wPlace)

/-- `W_PLACE`: `MemWrite(ADDR + SIZE + 1, 1, TMP); PHASE <- W_PAYLOAD`, the placeholder, never omitted (R82, R89). -/
def microWPlace (s : State) : Step :=
  writeStore (trailAddr s.addr s.size) s.tmp s fun s => .next (s.enter .wPayload)

/-- `W_PAYLOAD`: the source byte `IDX` is read once, written to its payload cell and folded (R83). -/
def microWPayload (s : State) : Step :=
  readSource s.idx s fun b s =>
    writeStore (payloadAddr s.addr s.idx) b s fun s =>
      .next ((s.fold b).advance.enter (if s.idx + 1 = s.size then .wLead else .wPayload))

/-- `W_LEAD`: `MemWrite(ADDR, 1, ACC); PHASE <- W_TRAIL` (R84). -/
def microWLead (s : State) : Step :=
  writeStore (leadAddr s.addr) s.acc s fun s => .next (s.enter .wTrail)

/-- `W_TRAIL`: `MemWrite(ADDR + SIZE + 1, 1, ~ACC); respond(OK, 0x00); PHASE <- IDLE` (R85). -/
def microWTrail (s : State) : Step :=
  writeStore (trailAddr s.addr s.size) (~~~s.acc) s fun s => .next ((s.respond .ok 0).enter .idle)

end Sys2Proof.Machine
end

