-- ==== Sys2Proof/Machine/Dispatch.lean ====
section
/-! DEFINITION. What the core does with a command word that is presented to it, by row of the opcode map (R53). -/

namespace Sys2Proof.Machine

def exec (i : Instr) (s : State) : Host.Outcome State Fault Refusal :=
  match i with
  | .crcupd acc data => Sys2Proof.Machine.execCrcupd acc data s
  | .wrrec addr size => Sys2Proof.Machine.execWrrec addr size s
  | .rdrec addr size => Sys2Proof.Machine.execRdrec addr size s
  | .reserved word => Sys2Proof.Machine.execReserved word s

end Sys2Proof.Machine
end

