-- ==== Sys2Proof/Machine/Micro.lean ====
section
/-! DEFINITION. The core's next micro-step, by phase (spec 10_state.md R16, R17). -/

namespace Sys2Proof.Machine

/-- One micro-step of the command in progress (R17). In `IDLE` the core has none: it does nothing (R16). -/
def microStep (s : State) : Step :=
  match s.phase with
  | .idle => .next s
  | .wRdold => microWRdold s
  | .wPlace => microWPlace s
  | .wPayload => microWPayload s
  | .wLead => microWLead s
  | .wTrail => microWTrail s
  | .rFold => microRFold s
  | .rLead => microRLead s
  | .rTrail => microRTrail s
  | .rCopy => microRCopy s

end Sys2Proof.Machine
end

