-- ==== Sys2Proof/Machine/Power.lean ====
section
/-! DEFINITION. Loss of power, equivalently reset (spec 60_exceptions.md R106, 70_reset_and_hazards.md R120): the one
asynchronous event of the system. -/

namespace Sys2Proof.Machine

/-- The cell that the next micro-step writes, in a phase whose micro-step is a `MemWrite` (R106: `W_PLACE`,
`W_PAYLOAD`, `W_LEAD`, `W_TRAIL`). -/
def State.cellBeingWritten (s : State) : Option Nat :=
  match s.phase with
  | .wPlace => some (trailAddr s.addr s.size)
  | .wPayload => some (payloadAddr s.addr s.idx)
  | .wLead => some (leadAddr s.addr)
  | .wTrail => some (trailAddr s.addr s.size)
  | _ => none

/-- The store after a power loss (R34, R106): unchanged, but for the cell being written under `TORN_BYTE = any`, which
"may in addition" hold an arbitrary byte: the power environment's `torn` byte (log entry 6). -/
def State.storeAfterCut (s : State) (torn : Option Byte) : Memory :=
  match s.params.tornByte, torn, s.cellBeingWritten with
  | .any, some b, some a => if a < s.params.storeSize then Memory.write s.store a b else s.store
  | _, _, _ => s.store

/-- Power loss, and power returning (R106, R120): `PHASE <- IDLE`; the data registers become free values (log entry 3), each of its register's width;
no response for the command in progress; `SRC`, `DST` and the responses the host already took stay. -/
def powerLoss (torn : Option Byte) (s : State) : State :=
  { s with
    phase := .idle
    acc := Config.unspecifiedAcc s.draws
    addr := Config.unspecifiedAddr s.draws % 2 ^ s.params.widths.aw
    size := Config.unspecifiedSize s.draws % 2 ^ s.params.widths.sw
    idx := Config.unspecifiedIdx s.draws % 2 ^ s.params.widths.sw
    tmp := Config.unspecifiedTmp s.draws
    store := s.storeAfterCut torn
    draws := s.draws + 1 }

/-- The power environment's move (log entry 8): `some torn` when power is lost now, with that byte for a torn cell, or
`none` when the step is left to the core and the host; and the state with the move counted off. -/
def powerMove (s : State) : Option (Option Byte) × State :=
  match s.powerCuts with
  | [] => (none, s)
  | ⟨0, torn⟩ :: cs => (some torn, s.putCuts cs)
  | ⟨n + 1, torn⟩ :: cs => (none, s.putCuts (⟨n, torn⟩ :: cs))

end Sys2Proof.Machine
end

