-- ==== Sys2Proof/Machine/Sequencer.lean ====
section
/-! DEFINITION. Who moves next: the power environment, the core, or the host (spec 10_state.md R10, R17, R18, R27). -/

namespace Sys2Proof.Machine

/-- One step while power stays on: a busy core takes its next micro-step (R17); an idle one accepts the word presented
(R18), decodes it and runs its command; with no word presented the host moves. -/
def poweredStep (s : State) : Step :=
  if s.busy then microStep s
  else
    match presented s with
    | some (w, s) => exec (decode s.params.widths w) s
    | none => .next (hostMove s)

/-- One step of the complete model: power is lost, or else the core or the host moves (R10(d), R27, R106). -/
def modelStep (s : State) : Step :=
  match powerMove s with
  | (some torn, s) => .next (powerLoss torn s)
  | (none, s) => poweredStep s

end Sys2Proof.Machine
end

