-- ==== Sys2Proof/Machine/Step.lean ====
section
/-! DEFINITION. One step of the complete model (spec 10_state.md R27), and how a word is placed for the next step. -/

namespace Sys2Proof.Machine

/-- One step: a power loss, a core micro-step, an acceptance, or a move of the host (R27). -/
def step (s : State) : Host.Outcome State Fault Refusal := modelStep s

/-- The state whose very next step accepts the word `w` of `nbits` bits: it is presented on the command channel, the core
is idle and power stays on (log entry 7). -/
def State.withFetchWord (s : State) (nbits w : Nat) : State := s.presenting (w % 2 ^ nbits)

end Sys2Proof.Machine
end

