-- ==== Sys2Proof/Machine/Asm.lean ====
section
/-! DEFINITION. The textual syntax of commands, annotations and the pseudo-command (spec 30_encoding.md R61, R62), read into
moves of the host. What the spec leaves open of it is in log entry 20. -/

namespace Sys2Proof.Machine

/-- The tokens of a line. -/
inductive Token where
  /-- A run of characters with no space and none of the four marks. -/
  | word (cs : List Char)
  | comma
  | equals
  | openBracket
  | closeBracket
  deriving DecidableEq, Repr

/-- What a line says. -/
inductive SourceLine where
  /-- Nothing but space and comment. -/
  | blank
  /-- A command, or an annotation `SRC = [...]`, `DST = [...]`. -/
  | move (m : HostMove)
  /-- `CRCFOLD b0, .., b(n-1)` (R62). -/
  | fold (bytes : List Byte)
  deriving DecidableEq, Repr

/-- The pending word, if any, as a token before `ts`. -/
def flushWord (pending : List Char) (ts : List Token) : List Token :=
  if pending.isEmpty then ts else .word pending.reverse :: ts

/-- The tokens of a line's characters; `pending` holds the word being read, last character first. "A comment runs from `;`
to the end of the line." -/
def tokens : List Char → List Char → List Token
  | [], pending => flushWord pending []
  | c :: cs, pending =>
    if c = ';' then flushWord pending []
    else if c = ' ' ∨ c = '\t' then flushWord pending (tokens cs [])
    else if c = ',' then flushWord pending (.comma :: tokens cs [])
    else if c = '=' then flushWord pending (.equals :: tokens cs [])
    else if c = '[' then flushWord pending (.openBracket :: tokens cs [])
    else if c = ']' then flushWord pending (.closeBracket :: tokens cs [])
    else tokens cs (c :: pending)

/-- The value of a digit in a base of at most 16. -/
def digitValue (base : Nat) (c : Char) : Option Nat :=
  let v :=
    if '0' ≤ c ∧ c ≤ '9' then c.toNat - '0'.toNat
    else if 'a' ≤ c ∧ c ≤ 'f' then c.toNat - 'a'.toNat + 10
    else if 'A' ≤ c ∧ c ≤ 'F' then c.toNat - 'A'.toNat + 10
    else base
  if v < base then some v else none

/-- The value of the digits after those already read, which are worth `value`. -/
def digitsValue (base : Nat) : Nat → List Char → Option Nat
  | value, [] => some value
  | value, c :: cs =>
    match digitValue base c with
    | some d => digitsValue base (value * base + d) cs
    | none => none

/-- "a decimal number or a hexadecimal number with prefix `0x`", at least one digit. -/
def numberValue : List Char → Option Nat
  | [] => none
  | ['0', 'x'] => none
  | '0' :: 'x' :: cs => digitsValue 16 0 cs
  | cs => digitsValue 10 0 cs

/-- A number that fits `n` bits. -/
def operand (n : Nat) (cs : List Char) : Option Nat :=
  match numberValue cs with
  | some v => if v < 2 ^ n then some v else none
  | none => none

/-- A number that fits a byte, as that byte. -/
def byteOperand (cs : List Char) : Option Byte := (operand 8 cs).map (BitVec.ofNat 8)

/-- The bytes after a first one: `, b` as often as it stands, then the tokens left over. -/
def moreBytes : List Token → List Byte → Option (List Byte × List Token)
  | .comma :: .word cs :: ts, bs =>
    match byteOperand cs with
    | some b => moreBytes ts (bs ++ [b])
    | none => none
  | ts, bs => some (bs, ts)

/-- A list of bytes with commas between them, possibly empty, then the tokens left over. -/
def byteList : List Token → Option (List Byte × List Token)
  | .word cs :: ts =>
    match byteOperand cs with
    | some b => moreBytes ts [b]
    | none => none
  | ts => some ([], ts)

/-- `[b0, b1, ...]` and nothing after it. -/
def bracketed : List Token → Option (List Byte)
  | .openBracket :: ts =>
    match byteList ts with
    | some (bs, [.closeBracket]) => some bs
    | _ => none
  | _ => none

/-- The command of a mnemonic and its two operands, each of which fits its field on a machine of these widths
(R61). -/
def commandOf (W : Widths) (mnemonic x y : List Char) : Option Instr :=
  if mnemonic = "CRCUPD".toList then
    match byteOperand x, byteOperand y with
    | some a, some d => some (.crcupd a d)
    | _, _ => none
  else if mnemonic = "WRREC".toList then
    match operand W.aw x, operand W.sw y with
    | some a, some n => some (.wrrec a n)
    | _, _ => none
  else if mnemonic = "RDREC".toList then
    match operand W.aw x, operand W.sw y with
    | some a, some n => some (.rdrec a n)
    | _, _ => none
  else none

/-- What a line's tokens say; `none`: it is no line of the syntax. -/
def lineOf (W : Widths) : List Token → Option SourceLine
  | [] => some .blank
  | .word name :: .equals :: ts =>
    if name = "SRC".toList then (bracketed ts).map fun bs => .move (.setSource bs)
    else if name = "DST".toList then (bracketed ts).map fun bs => .move (.setDest bs)
    else none
  | .word mnemonic :: ts =>
    if mnemonic = "CRCFOLD".toList then
      match byteList ts with
      | some (bs, []) => some (.fold bs)
      | _ => none
    else
      match ts with
      | [.word x, .comma, .word y] => (commandOf W mnemonic x y).map fun i => .move (.issue (encode W i))
      | _ => none
  | _ => none

/-- A line of a test program, read (R61). -/
def assembleLine (W : Widths) (line : String) : Option SourceLine := lineOf W (tokens line.toList [])

/-- A program without CRCFOLD, read into the host's moves; `none` if a line is no line of the syntax. -/
def assemble (W : Widths) : List String → Option (List HostMove)
  | [] => some []
  | l :: ls =>
    match assembleLine W l, assemble W ls with
    | some .blank, some ms => some ms
    | some (.move m), some ms => some (m :: ms)
    | _, _ => none

end Sys2Proof.Machine
end

