-- ==== Sys2Proof/Machine/HostMacro.lean ====
section
/-! DEFINITION. The pseudo-command CRCFOLD, a macro of the host over CRCUPD (spec 30_encoding.md R62). -/

namespace Sys2Proof.Machine

/-- The `result` field of the last response the host took. -/
def lastResult (s : State) : Byte := responseResult (s.responses.getLast?.getD 0)

/-- Steps until the host has no more than `left` moves to come, `fuel` steps at most. -/
def stepUntilTaken (left : Nat) : Nat → State → Step
  | 0, s => .next s
  | fuel + 1, s =>
    match step s with
    | .next t => if t.hostMoves.length ≤ left then .next t else stepUntilTaken left fuel t
    | .fault f => .fault f
    | .refused r => .refused r

/-- As many steps as can pass before a word presented now is taken: the power losses to come, the micro-steps of a command in
progress (each run of payload bytes ends or leaves the store), and the step that takes the word. -/
def stepsToTake (s : State) : Nat := s.powerCuts.length + 2 * s.params.storeSize + 8

/-- The host presents the command `i` and waits until the core has taken it. CRCUPD responds in the step that takes it (R73), so
no power loss can come between the two. DESIGN CHOICE, where the spec is silent on a power loss during a CRCFOLD (R62, R58,
R106): a power loss that comes before the word is taken does not end the macro; the host goes on presenting the word, as it
does with the words of any other plan, and the same while a command in progress keeps the core busy (log entry 23). -/
def issueAndWait (i : Instr) (s : State) : Step :=
  stepUntilTaken s.hostMoves.length (stepsToTake s) (s.issue (encode s.params.widths i))

/-- `CRCFOLD b0, .., b(n-1)` from the running value `r`: for each byte issue `CRCUPD r, b` and take the result field of its
response as the next `r` (R62). The answer is the state after the last response and the macro's value. What a power loss during
it does is the model's choice: log entry 23. -/
def crcFold : List Byte → Byte → State → Host.Outcome (State × Byte) Fault Refusal
  | [], r, s => .next (s, r)
  | b :: bs, r, s =>
    match issueAndWait (.crcupd r b) s with
    | .next s => crcFold bs (lastResult s) s
    | .fault f => .fault f
    | .refused x => .refused x

end Sys2Proof.Machine
end

