-- ==== Sys2Proof/Machine/DocumentCalls.lean ====
section
/-! DEFINITION. The document's calls as the host makes them (spec 30_encoding.md R61): `write(P, N, A)`, `read(N, A)` and
`update(a, d)`, each one command run to its end, in the terms of the document's properties (70_reset_and_hazards.md R132). -/

namespace Sys2Proof.Machine

/-- What comes after a run that answers a next state. -/
def afterRun {α : Type} (x : Step) (k : State → Host.Outcome α Fault Refusal) : Host.Outcome α Fault Refusal :=
  match x with
  | .next s => k s
  | .fault f => .fault f
  | .refused r => .refused r

/-- Steps of a busy core until it is idle, `fuel` steps at most. -/
def stepUntilIdle : Nat → State → Step
  | 0, s => .next s
  | fuel + 1, s => if s.phase = .idle then .next s else afterRun (step s) (stepUntilIdle fuel)

/-- The command in progress, if there is one, runs to its end or is cut short by a power loss. -/
def finishCommand (s : State) : Step := stepUntilIdle (2 * s.params.storeSize + 8) s

/-- The first response word emitted between two states; none when a power loss cut the command short (R58, R106). -/
def newResponse (before after : State) : Option ResponseWord := (after.responses.drop before.responses.length).head?

/-- The host issues the command to an idle core and waits for its end: the state then, and the command's response. -/
def callCommand (i : Instr) (s : State) : Host.Outcome (State × Option ResponseWord) Fault Refusal :=
  afterRun (issueAndWait i s) fun t => afterRun (finishCommand t) fun u => .next (u, newResponse s u)

/-- A call is a command only where the operands fit their fields (R61's ranges `addr in 0..2^AW-1` and a size of at most
`2^SW-1`): no word stands for any other, so the host issues nothing, nothing changes and no response comes (log entry 24). -/
def ifOperandsFit (i : Instr) (s : State) (k : Host.Outcome (State × Option ResponseWord) Fault Refusal) :
    Host.Outcome (State × Option ResponseWord) Fault Refusal :=
  if i.fitsRow s.params.widths then k else .next (s, none)

/-- `write(P, N, A)` is `SRC = P; WRREC A, N` (R61), once the core is idle (R125, log entry 24). -/
def documentWrite (payload : List Byte) (size addr : Nat) (s : State) :
    Host.Outcome (State × Option ResponseWord) Fault Refusal :=
  ifOperandsFit (.wrrec addr size) s <|
    afterRun (finishCommand s) fun t => callCommand (.wrrec addr size) (t.putSrc payload)

/-- `read(N, A)` is `RDREC A, N` (R61), into a destination buffer that holds `dest` before (R36, R96), once the core is idle
(R125, log entry 24). -/
def documentRead (dest : List Byte) (size addr : Nat) (s : State) :
    Host.Outcome (State × Option ResponseWord) Fault Refusal :=
  ifOperandsFit (.rdrec addr size) s <|
    afterRun (finishCommand s) fun t => callCommand (.rdrec addr size) (t.putDst dest)

/-- `update(a, d)` is `CRCUPD a, d` (R61), whose operands are bytes and always fit, once the core is idle (R125, log entry 24). -/
def documentUpdate (acc data : Byte) (s : State) : Host.Outcome (State × Option ResponseWord) Fault Refusal :=
  afterRun (finishCommand s) (callCommand (.crcupd acc data))

/-- Bit `j` of store cell `x` flipped between commands: no move of any agent, but another state (R132, 95_test_vectors.md P1,
log entry 19). -/
def State.flipBit (s : State) (x j : Nat) : State := s.putStore (Memory.write s.store x (Memory.read s.store x ^^^ (1#8 <<< j)))

end Sys2Proof.Machine
end

