-- ==== Sys2Proof/Safety.lean ====
section
/-! DEFINITION. What counts as a safe run, in the terms the statements use: runs of several steps, the contracts of the host
(spec 70_reset_and_hazards.md R124 to R129), the invariant of the controllers, and the document's six properties (R132). -/

namespace Sys2Proof.Machine

/-- `k` steps, stopping at a refusal. -/
def runSteps : Nat → State → Step
  | 0, s => .next s
  | k + 1, s =>
    match step s with
    | .next s => runSteps k s
    | .fault f => .fault f
    | .refused r => .refused r

/-- The core is idle and no power loss is to come. -/
abbrev State.Quiet (s : State) : Prop := s.phase = .idle ∧ s.powerCuts = []

/-- R129: the whole record lies in the store. -/
abbrev State.RecordFits (s : State) (addr size : Nat) : Prop :=
  addr + size + 1 < s.params.storeSize

/-- The cells of the record of `size` payload bytes at `addr`: `[addr, addr+size+1]` (R40). -/
abbrev InRecord (addr size a : Nat) : Prop := addr ≤ a ∧ a ≤ addr + size + 1

/-- The record in progress: its operands are legal (R56; acceptance lets no other through). -/
abbrev State.RecordLegal (s : State) : Prop := legalOperands s.params.widths s.addr s.size = true

/-- The first `IDX` payload cells hold the first `IDX` source bytes, and `ACC` is their checksum. -/
abbrev State.PayloadWritten (s : State) : Prop :=
  s.idx ≤ s.src.length ∧
    payloadOf s.store s.addr s.idx = s.src.take s.idx ∧ s.acc = crc8 (s.src.take s.idx)

/-- Both guard cells hold the byte of `TMP`, the old leading byte (R82, R131). -/
abbrev State.GuardsEqual (s : State) : Prop :=
  Memory.read s.store s.addr = s.tmp ∧ Memory.read s.store (s.addr + s.size + 1) = s.tmp

/-- What holds in each phase of a command (R81 to R85, R91 to R94). -/
def State.PhaseInv (s : State) : Prop :=
  match s.phase with
  | .idle => True
  | .wRdold => s.RecordLegal ∧ s.idx = 0 ∧ s.acc = crcInit
  | .wPlace => s.RecordLegal ∧ s.idx = 0 ∧ s.acc = crcInit ∧ Memory.read s.store s.addr = s.tmp
  | .wPayload => s.RecordLegal ∧ s.idx < s.size ∧ s.PayloadWritten ∧ s.GuardsEqual
  | .wLead => s.RecordLegal ∧ s.idx = s.size ∧ s.PayloadWritten ∧ s.GuardsEqual
  | .wTrail =>
    s.RecordLegal ∧ s.idx = s.size ∧ s.PayloadWritten ∧ Memory.read s.store s.addr = s.acc ∧
      Memory.read s.store (s.addr + s.size + 1) = s.tmp
  | .rFold =>
    s.RecordLegal ∧ s.idx < s.size ∧ s.acc = crc8 (payloadOf s.store s.addr s.idx)
  | .rLead =>
    s.RecordLegal ∧ s.idx = s.size ∧ s.acc = crc8 (payloadOf s.store s.addr s.size)
  | .rTrail =>
    s.RecordLegal ∧ s.idx = s.size ∧ s.acc = crc8 (payloadOf s.store s.addr s.size) ∧
      Memory.read s.store s.addr = s.acc
  | .rCopy =>
    s.RecordLegal ∧ s.idx < s.size ∧ ValidRecord s.store s.addr s.size ∧
      s.acc = crc8 (payloadOf s.store s.addr s.size) ∧ s.idx ≤ s.dst.length ∧
      s.dst.take s.idx = payloadOf s.store s.addr s.idx

/-- Each address and index register holds no more than its width allows: `AW`, `SW` and `SW` bits (R12, R13, R14). -/
abbrev State.RegistersFit (s : State) : Prop :=
  s.addr < 2 ^ s.params.widths.aw ∧ s.size < 2 ^ s.params.widths.sw ∧ s.idx < 2 ^ s.params.widths.sw

/-- The invariant of the model: legal parameters, registers within their widths, a store in canonical form inside
`STORE_SIZE`, and what the phase of the command in progress says. -/
def State.Inv (s : State) : Prop :=
  s.params.Legal ∧ s.RegistersFit ∧ Memory.wf s.store = true ∧ Memory.below s.store s.params.storeSize = true ∧ s.PhaseInv

/-- Two states the host, the store and the power environment cannot tell apart, now or later (R24, R26): they agree on
everything but the data registers that are stale in their phase. `TMP` is live in `W_PLACE` only (R15); the other four
are live during a command only (R24). -/
def SameLive (s t : State) : Prop :=
  s.phase = t.phase ∧ s.store = t.store ∧ s.src = t.src ∧ s.dst = t.dst ∧ s.responses = t.responses ∧
    s.history = t.history ∧ s.hostMoves = t.hostMoves ∧ s.powerCuts = t.powerCuts ∧ s.draws = t.draws ∧
    s.params = t.params ∧
    (s.phase ≠ .idle → s.acc = t.acc ∧ s.addr = t.addr ∧ s.size = t.size ∧ s.idx = t.idx) ∧
    (s.phase = .wPlace → s.tmp = t.tmp)

/-- Two outcomes the other agents cannot tell apart. -/
def SameLiveOutcome : Step → Step → Prop
  | .next s, .next t => SameLive s t
  | .fault _, .fault _ => True
  | .refused q, .refused r => q = r
  | _, _ => False

/-- The kind of mismatch a state's next micro-step would find (R101), a label for internal use (R102). -/
def State.mismatchFound (s : State) : Option MismatchKind :=
  match s.phase with
  | .rLead => if Memory.read s.store s.addr ≠ s.acc then some .leadingChecksumMismatch else none
  | .rTrail =>
    if Memory.read s.store (s.addr + s.size + 1) ≠ ~~~s.acc then some .trailingChecksumMismatch else none
  | _ => none

/-- The address of the one store access that the next micro-step makes (R17); none in `IDLE`. -/
def State.nextStoreAddress (s : State) : Option Nat :=
  match s.phase with
  | .idle => none
  | .wRdold => some (leadAddr s.addr)
  | .wPlace => some (trailAddr s.addr s.size)
  | .wPayload => some (payloadAddr s.addr s.idx)
  | .wLead => some (leadAddr s.addr)
  | .wTrail => some (trailAddr s.addr s.size)
  | .rFold => some (payloadAddr s.addr s.idx)
  | .rLead => some (leadAddr s.addr)
  | .rTrail => some (trailAddr s.addr s.size)
  | .rCopy => some (payloadAddr s.addr s.idx)

/-- The host keeps its buffer contract for the command in progress (R35, R126, R129): SRC has `SIZE` bytes during a
WRREC's payload, DST has room for `SIZE` bytes during an RDREC's copy. -/
def State.BuffersServe (s : State) : Prop :=
  (s.phase = .wPayload → s.size ≤ s.src.length) ∧ (s.phase = .rCopy → s.size ≤ s.dst.length)

/-- The host keeps its buffer contract for the rest of the command in progress: SRC has `SIZE` bytes throughout a WRREC, DST
has room for `SIZE` bytes throughout an RDREC (R35, R36, R126, R129). -/
abbrev State.BuffersServeCommand (s : State) : Prop :=
  (s.phase ∈ [Phase.wRdold, .wPlace, .wPayload, .wLead, .wTrail] → s.size ≤ s.src.length) ∧
    (s.phase ∈ [Phase.rFold, .rLead, .rTrail, .rCopy] → s.size ≤ s.dst.length)

/-- A store access, as opposed to a buffer access. -/
def Access.isStore : Access → Bool
  | .storeRead _ _ => true
  | .storeWrite _ _ => true
  | .srcRead _ _ => false
  | .dstWrite _ _ => false

/-- The accesses of a run of SrcRead and MemWrite pairs: payload bytes `bs` from index `i` of the record at `addr`
(R87). -/
def payloadWrites (addr : Nat) : Nat → List Byte → List Access
  | _, [] => []
  | i, b :: bs => .srcRead i b :: .storeWrite (addr + 1 + i) b :: payloadWrites addr (i + 1) bs

/-- The reads of payload bytes `bs` from index `i` of the record at `addr` (R97). -/
def payloadReads (addr : Nat) : Nat → List Byte → List Access
  | _, [] => []
  | i, b :: bs => .storeRead (addr + 1 + i) b :: payloadReads addr (i + 1) bs

/-- The reads and DstWrites of payload bytes `bs` from index `i` of the record at `addr` (R97). -/
def payloadCopies (addr : Nat) : Nat → List Byte → List Access
  | _, [] => []
  | i, b :: bs => .storeRead (addr + 1 + i) b :: .dstWrite i b :: payloadCopies addr (i + 1) bs

/-- R87's phase column: the phase after `k` steps of a legal WRREC of `n` bytes, its acceptance being the first. -/
def wrrecPhaseAfter (n k : Nat) : Phase :=
  if k = 1 then .wRdold
  else if k = 2 then .wPlace
  else if k < n + 3 then .wPayload
  else if k = n + 3 then .wLead
  else if k = n + 4 then .wTrail
  else .idle

/-- R87's access column: the accesses of a legal WRREC at `addr` with payload `p`, the byte at `addr` being `old`. -/
def wrrecAccesses (addr : Nat) (old : Byte) (p : List Byte) : List Access :=
  [.storeRead addr old, .storeWrite (addr + p.length + 1) old] ++ payloadWrites addr 0 p ++
    [.storeWrite addr (crc8 p), .storeWrite (addr + p.length + 1) (~~~(crc8 p))]

/-- How many of those accesses (W_PAYLOAD makes two, one of them to SRC) the first `k` steps make. -/
def wrrecAccessCount (n k : Nat) : Nat :=
  if k ≤ 3 then k - 1 else if k ≤ n + 3 then 2 * k - 4 else n + k - 1

/-- Two records have no cell in common (R127). -/
abbrev RecordsDisjoint (a m b n : Nat) : Prop := a + m + 1 < b ∨ b + n + 1 < a

/-! ## The document's six properties (70_reset_and_hazards.md R132), of the document's calls -/

/-- What the host owes a call on the record of `size` bytes at `addr`: an idle core with power on, legal operands (R56) and a record
inside the store (R129). The store's contents are in canonical form. -/
abbrev State.ReadyFor (s : State) (addr size : Nat) : Prop :=
  s.Quiet ∧ Memory.wf s.store = true ∧ legalOperands s.params.widths addr size = true ∧ s.RecordFits addr size

/-- Round trip: `write(P, N, A)` then `read(N, A)` succeeds and yields `P`. -/
def DocumentRoundTrip : Prop :=
  ∀ (s : State) (p dest : List Byte) (a : Nat), s.ReadyFor a p.length → p.length ≤ dest.length →
    ∃ t u, documentWrite p p.length a s = .next (t, some 0x0000#16) ∧
      documentRead dest p.length a t = .next (u, some 0x0000#16) ∧ u.dst = p ++ dest.drop p.length

/-- Torn-write detection: after every successful write of a legal record (R56, R129), any single bit flipped within `[A, A+N+1]` makes `read` report
failure. -/
def DocumentTornWriteDetection : Prop :=
  ∀ (s t : State) (p dest : List Byte) (a x j : Nat), s.ReadyFor a p.length →
    documentWrite p p.length a s = .next (t, some 0x0000#16) → InRecord a p.length x → j < 8 →
      ∃ u, documentRead dest p.length a (t.flipBit x j) = .next (u, some 0x0100#16)

/-- No partial exposure on failure: after a read that responds anything but `OK`, every byte of the destination is what it was
(R96). -/
def DocumentNoPartialExposure : Prop :=
  ∀ (s u : State) (dest : List Byte) (n a : Nat) (r : ResponseWord), s.Quiet →
    documentRead dest n a s = .next (u, some r) → responseStatus r ≠ Status.code .ok → u.dst = dest

/-- Determinism of the fold: the step and the fold over a byte sequence from accumulator 0 answer what the bytes alone decide, in
every state (R70, R72). -/
def DocumentFoldIsDeterministic : Prop :=
  (∀ (acc data : Byte) (s : State), s.params.widths.Legal → s.Quiet →
    ∃ t, documentUpdate acc data s = .next (t, some (responseWord .ok (crc8Update acc data)))) ∧
  (∀ (bs : List Byte) (s : State), s.params.widths.Legal → s.Quiet → ∃ t, crcFold bs 0x00 s = .next (t, crc8 bs))

/-- Independence of disjoint records: two records written to disjoint ranges, then read back in either order, yield each its own
payload (R127). -/
def DocumentRecordsAreIndependent : Prop :=
  ∀ (s : State) (p q dest dest' : List Byte) (a b : Nat), s.ReadyFor a p.length → s.ReadyFor b q.length →
    RecordsDisjoint a p.length b q.length → p.length ≤ dest.length → q.length ≤ dest'.length →
      ∃ t u, documentWrite p p.length a s = .next (t, some 0x0000#16) ∧
        documentWrite q q.length b t = .next (u, some 0x0000#16) ∧
        (∃ v w, documentRead dest p.length a u = .next (v, some 0x0000#16) ∧ v.dst = p ++ dest.drop p.length ∧
          documentRead dest' q.length b v = .next (w, some 0x0000#16) ∧ w.dst = q ++ dest'.drop q.length) ∧
        (∃ v w, documentRead dest' q.length b u = .next (v, some 0x0000#16) ∧ v.dst = q ++ dest'.drop q.length ∧
          documentRead dest p.length a v = .next (w, some 0x0000#16) ∧ w.dst = p ++ dest.drop p.length)

/-- The concrete scenario (95_test_vectors.md S1, P1): `[1, 2, 3]` written at 10 stands as `D8 01 02 03 27` and reads back; a bit
of `store[10]` flipped makes the next read fail, while `store[11..13]` remain and the destination is untouched. -/
def DocumentConcreteScenario : Prop :=
  ∀ s : State, s.ReadyFor 10 3 →
    ∃ t u, documentWrite [0x01, 0x02, 0x03] 3 10 s = .next (t, some 0x0000#16) ∧
      (List.range 5).map (fun i => Memory.read t.store (10 + i)) = [0xD8, 0x01, 0x02, 0x03, 0x27] ∧
      documentRead [0xEE, 0xEE, 0xEE] 3 10 t = .next (u, some 0x0000#16) ∧ u.dst = [0x01, 0x02, 0x03] ∧
      ∀ j < 8, ∃ v, documentRead [0xEE, 0xEE, 0xEE] 3 10 (u.flipBit 10 j) = .next (v, some 0x0100#16) ∧
        payloadOf v.store 10 3 = [0x01, 0x02, 0x03] ∧ v.dst = [0xEE, 0xEE, 0xEE]

end Sys2Proof.Machine
end

