-- ==== Sys2Proof/Certificates/Slice0/Obligations.lean ====
section
/-! DEFINITION. The statements about the record core. Each docstring names the rule of spec/ it formalises, or the sections
it rests on. A statement over all states holds for every AW, SW, STORE_SIZE, STORE_INIT and TORN_BYTE unless it says otherwise.
The fields responses, history, hostMoves, powerCuts, draws and params are the model's own form of the channels, the access
record, the other agents' moves and the parameters (log entries 1, 3 and 5 to 10): what a statement says of them rests on that
form, and only the rest on the rule it names. -/

open Sys2Proof Sys2Proof.Machine

/-! ## Encoding -/

/-- Decode and encode agree, on a machine of any legal widths, on every command that fits its row, with every operand value the
encoding admits, legal or not; and the word has `CW` bits (30_encoding.md sections 1 to 3). -/
def Obligations.DecodeEncodeAgree : Prop :=
  ∀ (W : Widths) (i : Instr), W.Legal → i.fitsRow W = true → decode W (encode W i) = i ∧ encode W i < 2 ^ W.cw

/-- No bit of a command word is dropped, on a machine of any legal widths: every word of `CW` bits is the encoding of what it
decodes to, and that fits its row (30_encoding.md section 3). -/
def Obligations.EveryWordIsTheWordOfItsCommand : Prop :=
  ∀ (W : Widths) (cmd : Nat), W.Legal → cmd < 2 ^ W.cw →
    encode W (decode W cmd) = cmd ∧ (decode W cmd).fitsRow W = true

/-- The opcode map by mask and match, given for the default instance (30_encoding.md section 3): which row a word is of, with the
operands at the bit positions of the two formats; which words of a row are legal; the all-zero word is illegal. That an `op = 01`
word outside the CRCUPD match decodes to the constructor `reserved` is the model's choice (log entry 12); the rule only calls that
word illegal. -/
def Obligations.OpcodeMapByMaskAndMatch : Prop :=
  ∀ w : BitVec 32,
    (w &&& 0xC0000000#32 = 0x00000000#32 →
      decode .defaultInstance w.toNat = .reserved w.toNat ∧ legal .defaultInstance w.toNat = false) ∧
    (w &&& 0xFFFF0000#32 = 0x40000000#32 →
      decode .defaultInstance w.toNat = .crcupd (w >>> 8 |>.setWidth 8) (w.setWidth 8) ∧
        legal .defaultInstance w.toNat = true) ∧
    (w &&& 0xC0000000#32 = 0x40000000#32 → w &&& 0xFFFF0000#32 ≠ 0x40000000#32 →
      decode .defaultInstance w.toNat = .reserved w.toNat ∧ legal .defaultInstance w.toNat = false) ∧
    (w &&& 0xC0000000#32 = 0x80000000#32 →
      decode .defaultInstance w.toNat = .wrrec (w.setWidth 16).toNat (w >>> 16 |>.setWidth 14).toNat ∧
        (legal .defaultInstance w.toNat = true ↔
          1 ≤ (w >>> 16 |>.setWidth 14).toNat ∧ (w.setWidth 16).toNat + (w >>> 16 |>.setWidth 14).toNat + 1 ≤ 65535)) ∧
    (w &&& 0xC0000000#32 = 0xC0000000#32 →
      decode .defaultInstance w.toNat = .rdrec (w.setWidth 16).toNat (w >>> 16 |>.setWidth 14).toNat ∧
        (legal .defaultInstance w.toNat = true ↔
          1 ≤ (w >>> 16 |>.setWidth 14).toNat ∧ (w.setWidth 16).toNat + (w >>> 16 |>.setWidth 14).toNat + 1 ≤ 65535)) ∧
    legal .defaultInstance 0 = false

/-- R55, on a machine of any widths: the illegal words are exactly the four classes; the core's own test of a record command's
operands is the same; and no word executes as a no-op. -/
def Obligations.IllegalWordsAreFourClasses : Prop :=
  (∀ (W : Widths) (cmd : Nat), cmd < 2 ^ W.cw →
    let op := cmd / 2 ^ (W.sw + W.aw)
    let size := cmd / 2 ^ W.aw % 2 ^ W.sw
    let addr := cmd % 2 ^ W.aw
    (legal W cmd = false ↔
      op = 0 ∨ (op = 1 ∧ cmd / 2 ^ 16 % 2 ^ (W.sw + W.aw - 16) ≠ 0) ∨ (2 ≤ op ∧ size = 0) ∨
        (2 ≤ op ∧ addr + size + 1 > 2 ^ W.aw - 1))) ∧
  (∀ (cmd : Nat) (s : State), s.phase = .idle → legal s.params.widths cmd = false →
    exec (decode s.params.widths cmd) s = .next { s with responses := s.responses ++ [0x0200#16] }) ∧
  (∀ (cmd : Nat) (s : State), s.phase = .idle → exec (decode s.params.widths cmd) s ≠ .next s)

/-- Words written out from 95_test_vectors.md V5 and V6 decode to the commands they stand for; a sanity check. That
`0x60000000`, of which V6 says only that it is not legal, decodes to the constructor `reserved` is the model's choice (log entry
12). -/
def Obligations.WrittenOutWordsDecode : Prop :=
  decode .defaultInstance 0x40005AC3 = .crcupd 0x5A 0xC3 ∧ decode .defaultInstance 0x8003000A = .wrrec 10 3 ∧
  decode .defaultInstance 0xFFFFBFFF = .rdrec 49151 16383 ∧
  decode .defaultInstance 0x60000000 = .reserved 0x60000000

/-- The encoding for any legal widths, and the default instance (30_encoding.md sections 1 and 2). A word of `CW` bits is its
three fields of format R side by side, each within its width; the decoder reads a record command's operands from them, and a
CRCUPD's from its two low bytes when the bits between them and `op` are zero; at the default widths the fields stand at the bit
positions the two formats give. -/
def Obligations.GeneralEncodingAndDefaultInstance : Prop :=
  (∀ (W : Widths) (cmd : Nat), W.Legal → cmd < 2 ^ W.cw →
    opField W cmd < 4 ∧ sizeField W cmd < 2 ^ W.sw ∧ addrField W cmd < 2 ^ W.aw ∧
      opField W cmd * 2 ^ (W.sw + W.aw) + sizeField W cmd * 2 ^ W.aw + addrField W cmd = cmd) ∧
  (∀ (W : Widths) (size addr : Nat), size < 2 ^ W.sw → addr < 2 ^ W.aw →
    decode W (2 * 2 ^ (W.sw + W.aw) + size * 2 ^ W.aw + addr) = .wrrec addr size ∧
      decode W (3 * 2 ^ (W.sw + W.aw) + size * 2 ^ W.aw + addr) = .rdrec addr size) ∧
  (∀ (W : Widths) (acc data : Byte), W.Legal →
    decode W (2 ^ (W.sw + W.aw) + acc.toNat * 2 ^ 8 + data.toNat) = .crcupd acc data) ∧
  (∀ w : BitVec 32,
    opField .defaultInstance w.toNat = (w.extractLsb' 30 2).toNat ∧
      sizeField .defaultInstance w.toNat = (w.extractLsb' 16 14).toNat ∧
      addrField .defaultInstance w.toNat = (w.extractLsb' 0 16).toNat ∧
      zeroField .defaultInstance w.toNat = (w.extractLsb' 16 14).toNat ∧
      accField w.toNat = w.extractLsb' 8 8 ∧ dataField w.toNat = w.extractLsb' 0 8)

/-! ## How a step runs a command -/

/-- When the core is idle, power stays on and the host presents a word, the step is the meaning of the decoded command on
the state with the word taken off the channel (10_state.md sections 1 and 3).
The host's moves as a list are log entry 7. -/
def Obligations.StepRunsThePresentedCommand : Prop :=
  ∀ (s : State) (w : Nat) (ms : List HostMove),
    s.phase = .idle → s.powerCuts = [] → s.hostMoves = .issue w :: ms →
      step s = exec (decode s.params.widths w) { s with hostMoves := ms }

/-- The other moves of a step: a busy core takes its micro-step; a power loss to come is counted down by one and does not
disturb the step; an idle core with no command waits or lets the host give a buffer its bytes (10_state.md sections 1
and 3). The countdown, the order of moves and the waiting are the model's choice: log entries 7, 8 and 17. -/
def Obligations.StepOtherMoves : Prop :=
  (∀ s : State, s.phase ≠ .idle → s.powerCuts = [] → step s = microStep s) ∧
  (∀ (s : State) (n : Nat) (torn : Option Byte) (cs : List PowerCut), s.powerCuts = ⟨n + 1, torn⟩ :: cs →
    step s = poweredStep { s with powerCuts := ⟨n, torn⟩ :: cs }) ∧
  (∀ s : State, s.phase = .idle → s.powerCuts = [] → s.hostMoves = [] → step s = .next s) ∧
  (∀ (s : State) (bs : List Byte) (ms : List HostMove), s.phase = .idle → s.powerCuts = [] →
    s.hostMoves = .setSource bs :: ms → step s = .next { s with src := bs, hostMoves := ms }) ∧
  (∀ (s : State) (bs : List Byte) (ms : List HostMove), s.phase = .idle → s.powerCuts = [] →
    s.hostMoves = .setDest bs :: ms → step s = .next { s with dst := bs, hostMoves := ms })

/-- `cmd_ready` and `busy` are functions of PHASE; a word presented while busy is not accepted, is not lost, and is no error; an
idle core takes it (10_state.md section 3). The rule says that a command is accepted in IDLE only; that exec leaves a busy state
as it is is the model's choice (log entry 13), and that the word waits in the host's list is log entry 7. -/
def Obligations.BusyCoreAcceptsNothing : Prop :=
  (∀ s : State, (s.cmdReady = true ↔ s.phase = .idle) ∧ (s.busy = true ↔ s.phase ≠ .idle)) ∧
  (∀ (s : State) (i : Instr), s.phase ≠ .idle → exec i s = .next s) ∧
  (∀ s t : State, s.phase ≠ .idle → step s = .next t → t.hostMoves = s.hostMoves) ∧
  (∀ (s : State) (w : Nat) (ms : List HostMove),
    s.phase = .idle → s.powerCuts = [] → s.hostMoves = .issue w :: ms → ∃ t, step s = .next t ∧ t.hostMoves = ms)

/-- R17: a micro-step makes exactly one store access and at most one buffer access; an idle core, whether it accepts a
command or not, makes none; a power loss makes none; the history only grows. -/
def Obligations.OneStoreAccessPerMicroStep : Prop :=
  ∀ s t : State, step s = .next t →
    ∃ new, t.history = s.history ++ new ∧
      (s.phase = .idle → new = []) ∧
      ((∃ torn cs, s.powerCuts = ⟨0, torn⟩ :: cs) → new = []) ∧
      (s.phase ≠ .idle → (∀ torn cs, s.powerCuts ≠ ⟨0, torn⟩ :: cs) →
        (new.filter Access.isStore).length = 1 ∧ (new.filter fun a => !a.isStore).length ≤ 1)

/-- R16's table of phase codes; the codes 6, 7, 12 to 15 are never entered, and no two phases share a code. -/
def Obligations.PhaseCodes : Prop :=
  Phase.code .idle = 0 ∧ Phase.code .wRdold = 1 ∧ Phase.code .wPlace = 2 ∧ Phase.code .wPayload = 3 ∧
  Phase.code .wLead = 4 ∧ Phase.code .wTrail = 5 ∧ Phase.code .rFold = 8 ∧ Phase.code .rLead = 9 ∧
  Phase.code .rTrail = 10 ∧ Phase.code .rCopy = 11 ∧ ∀ p q : Phase, p.code = q.code → p = q

/-! ## The CRC8 engine and CRCUPD -/

/-- R71: only the xor of the two bytes matters; the table is linear with the eight single-bit values given; it is a
bijection, and so is the step in either argument; a byte folded into itself gives zero. -/
def Obligations.CrcStepIsALinearBijection : Prop :=
  (∀ a d : Byte, crc8Update a d = crc8Update (a ^^^ d) 0) ∧
  (∀ x y : Byte, crc8Update (x ^^^ y) 0 = crc8Update x 0 ^^^ crc8Update y 0) ∧
  crc8Update 0x00 0 = 0x00 ∧ crc8Update 0x01 0 = 0x5E ∧ crc8Update 0x02 0 = 0xBC ∧ crc8Update 0x04 0 = 0x61 ∧
  crc8Update 0x08 0 = 0xC2 ∧ crc8Update 0x10 0 = 0x9D ∧ crc8Update 0x20 0 = 0x23 ∧ crc8Update 0x40 0 = 0x46 ∧
  crc8Update 0x80 0 = 0x8C ∧
  Function.Bijective (fun x : Byte => crc8Update x 0) ∧
  (∀ a : Byte, Function.Bijective fun d : Byte => crc8Update a d) ∧
  (∀ d : Byte, Function.Bijective fun a : Byte => crc8Update a d) ∧
  (∀ x : Byte, crc8Update x x = 0)

/-- R72: the fold from `0x00`, left to right; the empty sequence; the worked example. -/
def Obligations.CrcFoldLeftToRight : Prop :=
  crc8 [] = 0x00 ∧ (∀ (bs : List Byte) (b : Byte), crc8 (bs ++ [b]) = crc8Update (crc8 bs) b) ∧
  crc8 [0x01] = 0x5E ∧ crc8 [0x01, 0x02] = 0x78 ∧ crc8 [0x01, 0x02, 0x03] = 0xD8

/-- A sequence followed by its own checksum folds to zero, and leading zero bytes do not change a checksum
(95_test_vectors.md V4). -/
def Obligations.CrcOfSequenceAndItsChecksum : Prop :=
  ∀ (bs : List Byte) (n : Nat), crc8 (bs ++ [crc8 bs]) = 0 ∧ crc8 (List.replicate n 0 ++ bs) = crc8 bs

/-- A payload with a single bit flipped has another checksum (70_reset_and_hazards.md section 5). -/
def Obligations.CrcDetectsASingleBitFlip : Prop :=
  ∀ (bs : List Byte) (i : Nat) (h : i < bs.length) (j : Nat), j < 8 →
    crc8 (bs.set i (bs[i] ^^^ (1#8 <<< j))) ≠ crc8 bs

/-- CRCUPD (40_crc8_engine.md section 3): one step, `respond(OK, crc8_update(acc, data))`, and nothing else changes; not accepted
while busy, where that exec answers the same state is the model's choice (log entry 13); its word on the default instance; its
illegal form, on any widths; its two worked corner cases. -/
def Obligations.CrcupdResult : Prop :=
  (∀ (acc data : Byte) (s : State), s.phase = .idle →
    exec (.crcupd acc data) s =
      .next { s with responses := s.responses ++ [0#6 ++ 0b00#2 ++ crc8Update acc data] }) ∧
  (∀ (acc data : Byte) (s : State), s.phase ≠ .idle → exec (.crcupd acc data) s = .next s) ∧
  (∀ acc data : Byte, decode .defaultInstance (0x4000#16 ++ acc ++ data).toNat = .crcupd acc data) ∧
  (∀ (cmd : Nat) (s : State), s.phase = .idle → opField s.params.widths cmd = 1 → zeroField s.params.widths cmd ≠ 0 →
    exec (decode s.params.widths cmd) s = .next { s with responses := s.responses ++ [0x0200#16] }) ∧
  (∀ x : Byte, crc8Update x x = 0) ∧ crc8Update 0x00 0x01 = 0x5E

/-- R62, the host macro CRCFOLD: its value is `CRC8` of its bytes, each command answers the next partial checksum, nothing
else changes; with no bytes it issues no command. -/
def Obligations.CrcFoldMacroComputesTheChecksum : Prop :=
  ∀ (bs : List Byte) (s : State), s.params.widths.Legal → s.Quiet →
    crcFold bs 0x00 s =
      .next ({ s with responses :=
                s.responses ++ (List.range bs.length).map fun k => responseWord .ok (crc8 (bs.take (k + 1))) },
        crc8 bs)

/-- CRCFOLD with power losses to come (30_encoding.md section 7): from an idle core its value is still `CRC8` of its bytes, with
the same responses, and the store, the buffers and the host's other moves as before. That the host goes on presenting a word that
a power loss kept from being taken is the model's choice, on which the rule is silent: log entry 23. -/
def Obligations.CrcFoldOutlastsPowerLosses : Prop :=
  ∀ (bs : List Byte) (s : State), s.params.widths.Legal → s.phase = .idle →
    ∃ t, crcFold bs 0x00 s = .next (t, crc8 bs) ∧ t.phase = .idle ∧
      t.responses =
        s.responses ++ (List.range bs.length).map (fun k => responseWord .ok (crc8 (bs.take (k + 1)))) ∧
      t.store = s.store ∧ t.src = s.src ∧ t.dst = s.dst ∧ t.hostMoves = s.hostMoves ∧ t.history = s.history

/-! ## Illegal words and responses -/

/-- R57: an illegal word is accepted in one step, which answers `0x0200` and changes nothing else. -/
def Obligations.IllegalCommandChangesNothing : Prop :=
  ∀ (cmd : Nat) (s : State), s.phase = .idle → legal s.params.widths cmd = false →
    exec (decode s.params.widths cmd) s = .next { s with responses := s.responses ++ [0x0200#16] }

/-- The reserved row, and a record command whose operands are illegal, complete with the ILLEGAL response whatever the word
(30_encoding.md section 4); a size that no `size` field holds is among the illegal operands (30_encoding.md section 7). -/
def Obligations.ReservedAndIllegalOperandsRespondIllegal : Prop :=
  (∀ (w : Nat) (s : State), s.phase = .idle →
    exec (.reserved w) s = .next { s with responses := s.responses ++ [0x0200#16] }) ∧
  (∀ (a n : Nat) (s : State), s.phase = .idle →
    (n = 0 ∨ 2 ^ s.params.widths.sw ≤ n ∨ a + n + 1 > 2 ^ s.params.widths.aw - 1) →
    exec (.wrrec a n) s = .next { s with responses := s.responses ++ [0x0200#16] } ∧
    exec (.rdrec a n) s = .next { s with responses := s.responses ++ [0x0200#16] })

/-- A step emits at most one response word, and only the words R59 lists occur; a power loss emits none
(30_encoding.md section 5). -/
def Obligations.ResponseWordsThatOccur : Prop :=
  ∀ s t : State, step s = .next t →
    ((∃ torn cs, s.powerCuts = ⟨0, torn⟩ :: cs) → t.responses = s.responses) ∧
    (t.responses = s.responses ∨
      ∃ r : ResponseWord, t.responses = s.responses ++ [r] ∧ (r.toNat ≤ 0x00FF ∨ r = 0x0100#16 ∨ r = 0x0200#16))

/-! ## WRREC -/

/-- The acceptance of a legal WRREC (41_write_frame.md section 1): the registers of the record, no access, no response. -/
def Obligations.WrrecAcceptance : Prop :=
  ∀ (a n : Nat) (s : State), s.phase = .idle → 1 ≤ n → n < 2 ^ s.params.widths.sw →
    a + n + 1 ≤ 2 ^ s.params.widths.aw - 1 →
    exec (.wrrec a n) s = .next { s with addr := a, size := n, acc := 0x00, idx := 0, phase := .wRdold }

/-- R81, `W_RDOLD`: the old leading byte goes to TMP; one store read, at ADDR.
The records of responses and accesses are the model's (log entries 9 and 10). -/
def Obligations.MicroStepReadsOldLeadingByte : Prop :=
  ∀ s : State, s.phase = .wRdold → s.powerCuts = [] → s.addr < s.params.storeSize →
    step s = .next { s with
      tmp := Memory.read s.store s.addr, phase := .wPlace,
      history := s.history ++ [.storeRead s.addr (Memory.read s.store s.addr)] }

/-- R82, `W_PLACE`: the placeholder goes to the trailing cell; afterwards both guard cells hold the same byte, which no
valid record can have; IDX is 0.
The records of responses and accesses are the model's (log entries 9 and 10). -/
def Obligations.MicroStepWritesPlaceholder : Prop :=
  ∀ s : State, s.Inv → s.phase = .wPlace → s.powerCuts = [] → s.RecordFits s.addr s.size →
    ∃ t, step s = .next t ∧
      t = { s with
        store := Memory.write s.store (s.addr + s.size + 1) s.tmp, phase := .wPayload,
        history := s.history ++ [.storeWrite (s.addr + s.size + 1) s.tmp] } ∧
      Memory.read t.store (s.addr + s.size + 1) = s.tmp ∧
      Memory.read t.store s.addr = Memory.read t.store (s.addr + s.size + 1) ∧
      ¬ValidRecord t.store s.addr s.size ∧ t.idx = 0

/-- R83, `W_PAYLOAD`: source byte IDX is read once, written to its cell and folded; after the last one, ACC is the checksum
of the source bytes and the leading guard is next.
The records of responses and accesses are the model's (log entries 9 and 10). -/
def Obligations.MicroStepWritesPayloadByte : Prop :=
  ∀ (s : State) (b : Byte), s.Inv → s.phase = .wPayload → s.powerCuts = [] → s.RecordFits s.addr s.size →
    s.src[s.idx]? = some b →
      ∃ t, s.idx < s.size ∧ step s = .next t ∧
        t = { s with
          store := Memory.write s.store (s.addr + 1 + s.idx) b, acc := crc8Update s.acc b,
          idx := s.idx + 1, phase := if s.idx + 1 = s.size then .wLead else .wPayload,
          history := s.history ++
            [.srcRead s.idx b, .storeWrite (s.addr + 1 + s.idx) b] } ∧
        t.idx ≤ s.size ∧
        (t.phase = .wLead ↔ t.idx = s.size) ∧
        (t.phase = .wLead → t.acc = crc8 (s.src.take s.size))

/-- R84, `W_LEAD`: the checksum goes to ADDR.
The records of responses and accesses are the model's (log entries 9 and 10). -/
def Obligations.MicroStepWritesLeadingGuard : Prop :=
  ∀ s : State, s.phase = .wLead → s.powerCuts = [] → s.addr < s.params.storeSize →
    step s = .next { s with
      store := Memory.write s.store s.addr s.acc, phase := .wTrail,
      history := s.history ++ [.storeWrite s.addr s.acc] }

/-- R85, `W_TRAIL`: the 8-bit complement goes to the trailing cell, and the response `0x0000` ends the command in the same
micro-step.
The records of responses and accesses are the model's (log entries 9 and 10). -/
def Obligations.MicroStepWritesTrailingGuard : Prop :=
  ∀ s : State, s.phase = .wTrail → s.powerCuts = [] → s.RecordFits s.addr s.size →
    step s = .next { s with
      store := Memory.write s.store (s.addr + s.size + 1) (~~~s.acc), phase := .idle,
      responses := s.responses ++ [0x0000#16],
      history := s.history ++ [.storeWrite (s.addr + s.size + 1) (~~~s.acc)] }

/-- R86, the net effect of a WRREC that runs to its response: the record stands in the store and is valid, every other cell
is as before, and the registers, buffers and the host's other moves are as the rule and the micro-steps leave them.
The records of responses and accesses are the model's (log entries 9 and 10). -/
def Obligations.WrrecNetEffect : Prop :=
  ∀ (s : State) (a n : Nat), s.Quiet → Memory.wf s.store = true → legalOperands s.params.widths a n = true →
    s.RecordFits a n → n ≤ s.src.length →
      ∃ t, runSteps (n + 5) (s.issue (encode s.params.widths (.wrrec a n))) = .next t ∧
        Memory.read t.store a = crc8 (s.src.take n) ∧
        (∀ i (h : i < n) (hs : i < s.src.length), Memory.read t.store (a + 1 + i) = s.src[i]) ∧
        Memory.read t.store (a + n + 1) = ~~~(crc8 (s.src.take n)) ∧
        (∀ x, ¬InRecord a n x → Memory.read t.store x = Memory.read s.store x) ∧
        ValidRecord t.store a n ∧ payloadOf t.store a n = s.src.take n ∧
        t = { s with
          store := t.store, responses := s.responses ++ [0x0000#16], history := t.history,
          addr := a, size := n, idx := n, acc := crc8 (s.src.take n), tmp := Memory.read s.store a }

/-- R87, the access list and the transition graph of a legal WRREC: after each of its `n + 5` steps (acceptance, then
`n + 4` micro-steps), the phase and the accesses made so far.
The records of responses and accesses are the model's (log entries 9 and 10). -/
def Obligations.WrrecAccessList : Prop :=
  ∀ (s : State) (a n : Nat) (k : Nat), s.Quiet → Memory.wf s.store = true →
    legalOperands s.params.widths a n = true → s.RecordFits a n → n ≤ s.src.length → 1 ≤ k → k ≤ n + 5 →
      ∃ t, runSteps k (s.issue (encode s.params.widths (.wrrec a n))) = .next t ∧
        t.phase = wrrecPhaseAfter n k ∧
        t.history = s.history ++
          (wrrecAccesses a (Memory.read s.store a) (s.src.take n)).take
            (wrrecAccessCount n k) ∧
        t.responses = s.responses ++ (if k = n + 5 then [0x0000#16] else [])

/-! ## RDREC -/

/-- The acceptance of a legal RDREC (42_read_verify.md section 1): the registers of the record, no access, no response. -/
def Obligations.RdrecAcceptance : Prop :=
  ∀ (a n : Nat) (s : State), s.phase = .idle → 1 ≤ n → n < 2 ^ s.params.widths.sw →
    a + n + 1 ≤ 2 ^ s.params.widths.aw - 1 →
    exec (.rdrec a n) s = .next { s with addr := a, size := n, acc := 0x00, idx := 0, phase := .rFold }

/-- R91, `R_FOLD`: payload cell IDX is read and folded, and kept nowhere; after the last one, ACC is the checksum of the
stored payload and the leading check is next.
The records of responses and accesses are the model's (log entries 9 and 10). -/
def Obligations.MicroStepFoldsPayloadByte : Prop :=
  ∀ s : State, s.Inv → s.phase = .rFold → s.powerCuts = [] → s.RecordFits s.addr s.size →
    ∃ t, s.idx < s.size ∧ step s = .next t ∧
      t = { s with
        acc := crc8Update s.acc (Memory.read s.store (s.addr + 1 + s.idx)), idx := s.idx + 1,
        phase := if s.idx + 1 = s.size then .rLead else .rFold,
        history := s.history ++
          [.storeRead (s.addr + 1 + s.idx)
            (Memory.read s.store (s.addr + 1 + s.idx))] } ∧
      t.idx ≤ s.size ∧ (t.phase = .rLead ↔ t.idx = s.size) ∧
      (t.phase = .rLead → t.acc = crc8 (payloadOf s.store s.addr s.size))

/-- R92, `R_LEAD`: the leading byte against ACC; a mismatch ends the command, with the trailing byte unread and no
DstWrite.
The records of responses and accesses are the model's (log entries 9 and 10). -/
def Obligations.MicroStepChecksLeadingGuard : Prop :=
  ∀ s : State, s.phase = .rLead → s.powerCuts = [] → s.addr < s.params.storeSize →
    step s = .next
      (if Memory.read s.store s.addr ≠ s.acc then
        { s with
          phase := .idle, responses := s.responses ++ [0x0100#16],
          history := s.history ++ [.storeRead s.addr (Memory.read s.store s.addr)] }
      else
        { s with
          phase := .rTrail,
          history := s.history ++ [.storeRead s.addr (Memory.read s.store s.addr)] })

/-- R93, `R_TRAIL`: the trailing byte against the complement of ACC; reached only when the leading check passed; a mismatch
ends the command with no DstWrite.
The records of responses and accesses are the model's (log entries 9 and 10). -/
def Obligations.MicroStepChecksTrailingGuard : Prop :=
  ∀ s : State, s.Inv → s.phase = .rTrail → s.powerCuts = [] → s.RecordFits s.addr s.size →
    Memory.read s.store s.addr = s.acc ∧
    step s = .next
      (if Memory.read s.store (s.addr + s.size + 1) ≠ ~~~s.acc then
        { s with
          phase := .idle, responses := s.responses ++ [0x0100#16],
          history := s.history ++
            [.storeRead (s.addr + s.size + 1)
              (Memory.read s.store (s.addr + s.size + 1))] }
      else
        { s with
          phase := .rCopy, idx := 0,
          history := s.history ++
            [.storeRead (s.addr + s.size + 1)
              (Memory.read s.store (s.addr + s.size + 1))] })

/-- R94, `R_COPY`: payload cell IDX is read a second time and written to the destination; `OK` comes with the last byte, and
then the destination holds the verified payload.
The records of responses and accesses are the model's (log entries 9 and 10). -/
def Obligations.MicroStepCopiesPayloadByte : Prop :=
  ∀ s : State, s.Inv → s.phase = .rCopy → s.powerCuts = [] → s.RecordFits s.addr s.size →
    s.size ≤ s.dst.length →
      ∃ t, s.idx < s.size ∧ step s = .next t ∧
        t = { s with
          dst := s.dst.set s.idx (Memory.read s.store (s.addr + 1 + s.idx)), idx := s.idx + 1,
          phase := if s.idx + 1 = s.size then .idle else .rCopy,
          responses := if s.idx + 1 = s.size then s.responses ++ [0x0000#16] else s.responses,
          history := s.history ++
            [.storeRead (s.addr + 1 + s.idx)
                (Memory.read s.store (s.addr + 1 + s.idx)),
              .dstWrite s.idx (Memory.read s.store (s.addr + 1 + s.idx))] } ∧
        t.idx ≤ s.size ∧ (t.phase = .idle ↔ t.idx = s.size) ∧
        (t.phase = .idle →
          ValidRecord s.store s.addr s.size ∧
            t.dst.take s.size = payloadOf s.store s.addr s.size)

/-- The net effect of an RDREC that runs to its response (42_read_verify.md section 3): success if and only if the record is
valid, and then the first `size` bytes of DST are the payload and the others as before; otherwise DST is untouched; the
store is never changed. -/
def Obligations.RdrecNetEffect : Prop :=
  ∀ (s : State) (a n : Nat), s.Quiet → legalOperands s.params.widths a n = true → s.RecordFits a n →
    n ≤ s.dst.length →
      ∃ k t, k ≤ 2 * n + 3 ∧ runSteps k (s.issue (encode s.params.widths (.rdrec a n))) = .next t ∧
        t.phase = .idle ∧ t.store = s.store ∧ t.src = s.src ∧ t.hostMoves = s.hostMoves ∧ t.params = s.params ∧
        (ValidRecord s.store a n →
          t.responses = s.responses ++ [0x0000#16] ∧
            t.dst = payloadOf s.store a n ++ s.dst.drop n) ∧
        (¬ValidRecord s.store a n → t.responses = s.responses ++ [0x0100#16] ∧ t.dst = s.dst)

/-- The access list of a legal RDREC in each of its three outcomes, with the number of steps to it (42_read_verify.md
section 3). -/
def Obligations.RdrecAccessList : Prop :=
  ∀ (s : State) (a n : Nat), s.Quiet → legalOperands s.params.widths a n = true → s.RecordFits a n →
    n ≤ s.dst.length →
      let p := payloadOf s.store a n
      let lead := Memory.read s.store a
      let trail := Memory.read s.store (a + n + 1)
      let verify := payloadReads a 0 p ++ [.storeRead a lead]
      (lead ≠ crc8 p →
        ∃ t, runSteps (n + 2) (s.issue (encode s.params.widths (.rdrec a n))) = .next t ∧ t.phase = .idle ∧
          t.history = s.history ++ verify ∧ t.responses = s.responses ++ [0x0100#16]) ∧
      (lead = crc8 p → trail ≠ ~~~(crc8 p) →
        ∃ t, runSteps (n + 3) (s.issue (encode s.params.widths (.rdrec a n))) = .next t ∧ t.phase = .idle ∧
          t.history = s.history ++ verify ++ [.storeRead (a + n + 1) trail] ∧
          t.responses = s.responses ++ [0x0100#16]) ∧
      (lead = crc8 p → trail = ~~~(crc8 p) →
        ∃ t, runSteps (2 * n + 3) (s.issue (encode s.params.widths (.rdrec a n))) = .next t ∧ t.phase = .idle ∧
          t.history = s.history ++ verify ++ [.storeRead (a + n + 1) trail] ++
            payloadCopies a 0 p ∧
          t.responses = s.responses ++ [0x0000#16])

/-- The untouched-destination contract, step by step (42_read_verify.md section 3): DST changes only by a micro-step of
R_COPY or by the host itself between commands; R_COPY is entered only from R_TRAIL with a valid record; a step that
responds anything but OK leaves DST as it was. -/
def Obligations.DestinationUntouchedUnlessVerified : Prop :=
  ∀ s t : State, s.Inv → step s = .next t →
    (t.dst ≠ s.dst → s.phase = .rCopy ∨ (s.phase = .idle ∧ ∃ bs ms, s.hostMoves = .setDest bs :: ms)) ∧
    (t.phase = .rCopy → s.phase ≠ .rCopy →
      s.phase = .rTrail ∧ ValidRecord s.store s.addr s.size) ∧
    (∀ r, t.responses = s.responses ++ [r] → responseStatus r ≠ Status.code .ok → t.dst = s.dst)

/-- R102: both kinds of mismatch are surfaced by the same response word, with the store and the destination as they were and
the core idle. -/
def Obligations.MismatchKindsSurfaceIdentically : Prop :=
  ∀ (s : State) (kind : MismatchKind) (a : Nat), s.mismatchFound = some kind → s.powerCuts = [] →
    s.nextStoreAddress = some a → a < s.params.storeSize →
      ∃ t, step s = .next t ∧ t.phase = .idle ∧ t.responses = s.responses ++ [0x0100#16] ∧ t.store = s.store ∧
        t.dst = s.dst

/-! ## Records -/

/-- R131: equal guard bytes never validate; the guards of a valid record xor to `0xFF`; an RDREC of a uniformly filled
region always responds VERIFY_FAIL. -/
def Obligations.EqualGuardsNeverValidate : Prop :=
  (∀ (m : Memory) (a n : Nat), Memory.read m a = Memory.read m (a + n + 1) → ¬ValidRecord m a n) ∧
  (∀ (m : Memory) (a n : Nat), ValidRecord m a n → Memory.read m a ^^^ Memory.read m (a + n + 1) = 0xFF) ∧
  (∀ (s : State) (a n : Nat) (v : Byte), s.Quiet → legalOperands s.params.widths a n = true → s.RecordFits a n →
    (∀ x, InRecord a n x → Memory.read s.store x = v) →
      ∃ k t, runSteps k (s.issue (encode s.params.widths (.rdrec a n))) = .next t ∧ t.phase = .idle ∧
        t.responses = s.responses ++ [0x0100#16] ∧ t.dst = s.dst ∧ t.store = s.store ∧ t.hostMoves = s.hostMoves)

/-- The document's round trip (70_reset_and_hazards.md section 5): a record written and read back with the same operands
succeeds and yields the payload. -/
def Obligations.WriteThenReadRoundTrip : Prop :=
  ∀ (s : State) (a n : Nat) (ms : List HostMove), s.Quiet → Memory.wf s.store = true →
    legalOperands s.params.widths a n = true → s.RecordFits a n → n ≤ s.src.length → n ≤ s.dst.length →
    s.hostMoves = .issue (encode s.params.widths (.wrrec a n)) :: .issue (encode s.params.widths (.rdrec a n)) :: ms →
      ∃ k t, runSteps k s = .next t ∧ t.phase = .idle ∧ t.hostMoves = ms ∧
        t.responses = s.responses ++ [0x0000#16, 0x0000#16] ∧
        t.dst = s.src.take n ++ s.dst.drop n

/-- The document's torn-write detection by single-bit flips (70_reset_and_hazards.md section 5): a valid record with any one
bit of any of its cells flipped is answered VERIFY_FAIL, with the destination untouched. -/
def Obligations.SingleBitFlipIsDetected : Prop :=
  ∀ (s : State) (a n : Nat) (x j : Nat), s.Quiet → Memory.wf s.store = true →
    legalOperands s.params.widths a n = true → s.RecordFits a n → ValidRecord s.store a n →
    InRecord a n x → j < 8 →
      ∃ k t,
        runSteps k
          (({ s with store := Memory.write s.store x (Memory.read s.store x ^^^ (1#8 <<< j)) } : State).issue
            (encode s.params.widths (.rdrec a n))) = .next t ∧
        t.phase = .idle ∧ t.hostMoves = s.hostMoves ∧ t.responses = s.responses ++ [0x0100#16] ∧ t.dst = s.dst

/-- R132, the document's six properties, of the document's calls as the host makes them (Machine/DocumentCalls.lean): round trip,
torn-write detection by any single bit flip, no partial exposure on failure, determinism of the fold, independence of disjoint
records, and the concrete scenario of program P1. -/
def Obligations.DocumentPropertiesHold : Prop :=
  DocumentRoundTrip ∧ DocumentTornWriteDetection ∧ DocumentNoPartialExposure ∧ DocumentFoldIsDeterministic ∧
    DocumentRecordsAreIndependent ∧ DocumentConcreteScenario

/-- Records on disjoint ranges are independent (70_reset_and_hazards.md section 3): writing one leaves the other valid, with
its payload. -/
def Obligations.DisjointRecordsAreIndependent : Prop :=
  ∀ (s : State) (a n : Nat) (b m : Nat), s.Quiet → Memory.wf s.store = true →
    legalOperands s.params.widths a n = true → s.RecordFits a n → n ≤ s.src.length →
    RecordsDisjoint a n b m → ValidRecord s.store b m →
      ∃ t, runSteps (n + 5) (s.issue (encode s.params.widths (.wrrec a n))) = .next t ∧
        ValidRecord t.store b m ∧ payloadOf t.store b m = payloadOf s.store b m ∧
        ValidRecord t.store a n

/-! ## Power loss and the crash windows -/

/-- Power loss (60_exceptions.md section 2), possible before any step: the core is idle; no response; the buffers, the
parameters and the host's moves stay; the store is unchanged under `atomic`, and in every cell but the one being written
under `any`, which holds the torn byte if there is one. -/
def Obligations.PowerLossEffect : Prop :=
  ∀ (s : State) (torn : Option Byte) (cs : List PowerCut), s.powerCuts = ⟨0, torn⟩ :: cs →
    ∃ t, step s = .next t ∧ t.phase = .idle ∧ t.responses = s.responses ∧ t.history = s.history ∧ t.src = s.src ∧
      t.dst = s.dst ∧ t.hostMoves = s.hostMoves ∧ t.powerCuts = cs ∧ t.params = s.params ∧
      (s.params.tornByte = .atomic ∨ torn = none ∨ s.cellBeingWritten = none → t.store = s.store) ∧
      (∀ x, s.cellBeingWritten ≠ some x → Memory.read t.store x = Memory.read s.store x) ∧
      (∀ x b, s.params.tornByte = .any → torn = some b → s.cellBeingWritten = some x → x < s.params.storeSize →
        Memory.wf s.store = true → Memory.read t.store x = b)

/-- The crash windows of a write, the store's rows (70_reset_and_hazards.md section 4): power is lost after `j` steps of a
legal WRREC (acceptance is the first, `W_RDOLD` the second), that is after `k = j - 2` of its `n + 3` store writes. -/
def Obligations.CrashWindowSnapshots : Prop :=
  ∀ (s : State) (a n : Nat) (j : Nat) (torn : Option Byte), s.phase = .idle →
    s.powerCuts = [⟨j, torn⟩] → s.params.tornByte = .atomic → Memory.wf s.store = true →
    legalOperands s.params.widths a n = true → s.RecordFits a n → n ≤ s.src.length → 1 ≤ j → j ≤ n + 5 →
      let k := j - 2
      let old := Memory.read s.store a
      let c := crc8 (s.src.take n)
      ∃ t, runSteps (j + 1) (s.issue (encode s.params.widths (.wrrec a n))) = .next t ∧ t.phase = .idle ∧
        t.responses = s.responses ++ (if k = n + 3 then [0x0000#16] else []) ∧
        t.src = s.src ∧ t.dst = s.dst ∧ t.hostMoves = s.hostMoves ∧ t.powerCuts = [] ∧
        Memory.read t.store a = (if k ≤ n + 1 then old else c) ∧
        (∀ i (h : i < n) (hs : i < s.src.length), Memory.read t.store (a + 1 + i) =
          if i + 2 ≤ k then s.src[i] else Memory.read s.store (a + 1 + i)) ∧
        Memory.read t.store (a + n + 1) =
          (if k = 0 then Memory.read s.store (a + n + 1)
            else if k ≤ n + 2 then old else ~~~c) ∧
        (∀ x, ¬InRecord a n x → Memory.read t.store x = Memory.read s.store x)

/-- The crash windows of a write, what a later RDREC answers (70_reset_and_hazards.md section 4): the complete old payload
(only with no store write done), the complete new payload, or VERIFY_FAIL; never a mixture. -/
def Obligations.TornWriteNeverYieldsAMixture : Prop :=
  ∀ (s : State) (a n : Nat) (j : Nat) (torn : Option Byte) (d : List Byte) (ms : List HostMove),
    s.phase = .idle → s.powerCuts = [⟨j, torn⟩] → s.params.tornByte = .atomic → Memory.wf s.store = true →
    legalOperands s.params.widths a n = true → s.RecordFits a n → n ≤ s.src.length → n ≤ d.length → 1 ≤ j →
    j ≤ n + 5 →
    s.hostMoves =
        .issue (encode s.params.widths (.wrrec a n)) :: .setDest d :: .issue (encode s.params.widths (.rdrec a n)) :: ms →
      let k := j - 2
      let old := Memory.read s.store a
      let p := s.src.take n
      let before := s.responses ++ (if k = n + 3 then [0x0000#16] else [])
      ∃ i t, runSteps i s = .next t ∧ t.phase = .idle ∧ t.hostMoves = ms ∧ t.powerCuts = [] ∧
        (k = 0 → ValidRecord s.store a n →
          t.responses = before ++ [0x0000#16] ∧ t.dst = payloadOf s.store a n ++ d.drop n) ∧
        (k = 0 → ¬ValidRecord s.store a n → t.responses = before ++ [0x0100#16] ∧ t.dst = d) ∧
        (1 ≤ k → k ≤ n + 1 → t.responses = before ++ [0x0100#16] ∧ t.dst = d) ∧
        (k = n + 2 → old ≠ ~~~(crc8 p) → t.responses = before ++ [0x0100#16] ∧ t.dst = d) ∧
        (k = n + 2 → old = ~~~(crc8 p) →
          t.responses = before ++ [0x0000#16] ∧ t.dst = p ++ d.drop n) ∧
        (k = n + 3 → t.responses = before ++ [0x0000#16] ∧ t.dst = p ++ d.drop n)

/-! ## Invariants and whole-machine rules -/

/-- The controllers' invariant is kept by every step, power losses included (41_write_frame.md section 2, 42_read_verify.md
section 2, 70_reset_and_hazards.md section 4). -/
def Obligations.EveryStepKeepsTheInvariant : Prop :=
  ∀ s t : State, s.Inv → step s = .next t → t.Inv

/-- The invariant holds right after reset. The reset values of the parameters, of the store and of the data registers are the
model's choice: log entries 1, 2, 4 and 5. -/
def Obligations.ResetMeetsTheInvariant : Prop := State.reset.Inv

/-- What the spec gives for reset (10_state.md section 9): PHASE is IDLE, `cmd_ready` is 1, `busy` is 0, no response is
pending; and the first step makes no store access. -/
def Obligations.ResetIsReady : Prop :=
  State.reset.phase = .idle ∧ State.reset.cmdReady = true ∧ State.reset.busy = false ∧ State.reset.responses = [] ∧
    State.reset.history = []

/-- No step changes the parameters; responses are never taken back; a step changes the store only in a write phase of WRREC,
and then only in a cell of the record in progress (20_memory.md section 8, 41_write_frame.md section 3). -/
def Obligations.StoreChangesOnlyInsideTheRecord : Prop :=
  ∀ s t : State, s.Inv → step s = .next t →
    t.params = s.params ∧ (∃ rs, t.responses = s.responses ++ rs) ∧
    (s.phase ∈ [Phase.idle, .wRdold, .rFold, .rLead, .rTrail, .rCopy] → t.store = s.store) ∧
    (∀ x, ¬InRecord s.addr s.size x → Memory.read t.store x = Memory.read s.store x)

/-- The stale registers are invisible (10_state.md sections 8 and 9): two states that agree on everything but the data
registers that no rule reads before writing them take steps that agree in the same sense. So the values the model names
for reset (log entry 2) and the free values after a power loss (log entry 3) never show. -/
def Obligations.StaleRegistersNeverShow : Prop :=
  ∀ s t : State, SameLive s t → SameLiveOutcome (step s) (step t)

/-- No step depends on the outcome of an earlier command (10_state.md section 4): with other responses and another history
before it, a step does the same and adds the same. Both records are the model's (log entries 9 and 10). -/
def Obligations.EarlierOutcomesDoNotMatter : Prop :=
  ∀ (s t : State) (rs : List ResponseWord) (hs : List Access), step s = .next t →
    step { s with responses := rs, history := hs } =
      .next { t with
        responses := rs ++ t.responses.drop s.responses.length, history := hs ++ t.history.drop s.history.length }

/-- An access at an address the store does not implement is refused (R42: "a model has no value for it and refuses the
run"); the refusal, under this name, is log entry 14. -/
def Obligations.OutsideTheStoreIsRefused : Prop :=
  ∀ (s : State) (a : Nat), s.powerCuts = [] → s.nextStoreAddress = some a → s.params.storeSize ≤ a →
    (s.phase = .wPayload → s.idx < s.src.length) → step s = .refused (.outsideStore a)

/-- A buffer shorter than `size` is refused at the byte it lacks; the refusals, under these names, are log entry 15. -/
def Obligations.ShortBuffersAreRefused : Prop :=
  (∀ s : State, s.phase = .wPayload → s.powerCuts = [] → s.src.length ≤ s.idx →
    step s = .refused (.sourceTooShort s.idx)) ∧
  (∀ s : State, s.phase = .rCopy → s.powerCuts = [] → s.addr + 1 + s.idx < s.params.storeSize →
    s.dst.length ≤ s.idx → step s = .refused (.destinationTooShort s.idx))

/-- Inside the host's contract no step is refused: with `STORE_SIZE = 2^AW` and buffers of `size` bytes every state that
meets the invariant has a next state (93_implementation_defined.md U3, U5). -/
def Obligations.NoRefusalInsideTheContract : Prop :=
  ∀ s : State, s.Inv → s.params.storeSize = 2 ^ s.params.widths.aw → s.BuffersServe → ∃ t, step s = .next t

/-- A command in progress ends (70_reset_and_hazards.md section 7): with power on, the record inside the store, and SRC (for a
WRREC) or DST (for an RDREC) of `size` bytes, a busy core is idle again, with exactly one response more, within `2 * SIZE + 3`
micro-steps, which bounds both the `SIZE + 4` of a WRREC and the `2 * SIZE + 2` of an RDREC. -/
def Obligations.EveryCommandEnds : Prop :=
  ∀ s : State, s.Inv → s.phase ≠ .idle → s.powerCuts = [] → s.RecordFits s.addr s.size →
    s.BuffersServeCommand →
      ∃ k t, k ≤ 2 * s.size + 3 ∧ runSteps k s = .next t ∧ t.phase = .idle ∧ t.hostMoves = s.hostMoves ∧
        ∃ r, t.responses = s.responses ++ [r]

/-- The textual syntax (30_encoding.md section 7) on the lines of program P1 (95_test_vectors.md): each command line is the
word the program gives beside it. -/
def Obligations.ProgramTextAssembles : Prop :=
  assemble .defaultInstance
      ["SRC = [0x01, 0x02, 0x03]", "WRREC 10, 3        ; 0x8003000A", "DST = [0xEE, 0xEE, 0xEE]", "RDREC 10, 3",
        "CRCUPD 0x5E, 0x02", "; nothing but a comment"] =
    some [.setSource [1, 2, 3], .issue 0x8003000A, .setDest [0xEE, 0xEE, 0xEE], .issue 0xC003000A,
      .issue 0x40005E02]
end

