-- ==== Sys2Proof/Laws/Config.lean ====
section
/-! SUPPORT. The widths: what R6's constraints give, and the default instance (00_scope.md R6, 30_encoding.md R50). -/

namespace Sys2Proof

/-- The default instance meets R6's constraints on the widths. -/
theorem defaultInstance_legal : Widths.defaultInstance.Legal := by decide

@[simp] theorem defaultInstance_aw : Widths.defaultInstance.aw = 16 := rfl

@[simp] theorem defaultInstance_sw : Widths.defaultInstance.sw = 14 := rfl

@[simp] theorem defaultInstance_cw : Widths.defaultInstance.cw = 32 := rfl

@[simp] theorem defaultInstance_lastAddress : Widths.defaultInstance.lastAddress = 65535 := rfl

theorem lastAddress_lt (W : Widths) : W.lastAddress < 2 ^ W.aw :=
  Nat.sub_lt (Nat.two_pow_pos W.aw) Nat.one_pos

/-- Two bytes fit below the `op` field (R6, D3). -/
theorem two_bytes_fit {W : Widths} (h : W.Legal) : 2 ^ 16 ≤ 2 ^ (W.sw + W.aw) := Nat.pow_le_pow_right (by decide) h.2.2.2

theorem pow_sw_add_aw (W : Widths) : 2 ^ (W.sw + W.aw) = 2 ^ W.sw * 2 ^ W.aw := Nat.pow_add 2 W.sw W.aw

theorem pow_cw (W : Widths) : 2 ^ W.cw = 4 * 2 ^ (W.sw + W.aw) := by
  rw [Widths.cw, Nat.add_assoc, Nat.pow_add]

/-- The bits of the `zero` field lie between the two bytes and the `op` field (R52). -/
theorem pow_zeroField {W : Widths} (h : W.Legal) : 2 ^ 16 * 2 ^ (W.sw + W.aw - 16) = 2 ^ (W.sw + W.aw) := by
  rw [← Nat.pow_add]
  congr 1
  have := h.2.2.2
  omega

end Sys2Proof
end

