-- ==== Sys2Proof/Laws/Fields.lean ====
section
/-! SUPPORT. The fields of a command word as numbers: each within its width, and read back from a word of three fields
(30_encoding.md R51, R52, R54); and the way from the masks of the default instance to arithmetic (R53). -/

namespace Sys2Proof

variable {W : Widths} {op size addr : Nat}

theorem opField_lt (W : Widths) (cmd : Nat) : opField W cmd < 4 := Nat.mod_lt _ (by decide)

theorem sizeField_lt (W : Widths) (cmd : Nat) : sizeField W cmd < 2 ^ W.sw := Nat.mod_lt _ (Nat.two_pow_pos _)

theorem addrField_lt (W : Widths) (cmd : Nat) : addrField W cmd < 2 ^ W.aw := Nat.mod_lt _ (Nat.two_pow_pos _)

/-- The lower two fields together are below the `op` field. -/
theorem lowFields_lt (hs : size < 2 ^ W.sw) (ha : addr < 2 ^ W.aw) : size * 2 ^ W.aw + addr < 2 ^ (W.sw + W.aw) := by
  rw [pow_sw_add_aw]
  calc size * 2 ^ W.aw + addr < size * 2 ^ W.aw + 2 ^ W.aw := Nat.add_lt_add_left ha _
    _ = (size + 1) * 2 ^ W.aw := by rw [Nat.add_mul, Nat.one_mul]
    _ ≤ 2 ^ W.sw * 2 ^ W.aw := Nat.mul_le_mul_right _ hs

theorem wordOf_lt (ho : op < 4) (hs : size < 2 ^ W.sw) (ha : addr < 2 ^ W.aw) : wordOf W op size addr < 2 ^ W.cw := by
  have h := lowFields_lt hs ha
  rw [pow_cw, wordOf, Nat.add_assoc]
  calc op * 2 ^ (W.sw + W.aw) + (size * 2 ^ W.aw + addr) < op * 2 ^ (W.sw + W.aw) + 2 ^ (W.sw + W.aw) :=
        Nat.add_lt_add_left h _
    _ = (op + 1) * 2 ^ (W.sw + W.aw) := by rw [Nat.add_mul, Nat.one_mul]
    _ ≤ 4 * 2 ^ (W.sw + W.aw) := Nat.mul_le_mul_right _ ho

theorem opField_wordOf (ho : op < 4) (hs : size < 2 ^ W.sw) (ha : addr < 2 ^ W.aw) :
    opField W (wordOf W op size addr) = op := by
  rw [opField, wordOf, Nat.add_assoc, Nat.mul_comm op, Nat.mul_add_div (Nat.two_pow_pos _),
    Nat.div_eq_of_lt (lowFields_lt hs ha), Nat.add_zero, Nat.mod_eq_of_lt ho]

theorem sizeField_wordOf (hs : size < 2 ^ W.sw) (ha : addr < 2 ^ W.aw) : sizeField W (wordOf W op size addr) = size := by
  rw [sizeField, wordOf, pow_sw_add_aw, ← Nat.mul_assoc, ← Nat.add_mul, Nat.mul_comm (_ + _),
    Nat.mul_add_div (Nat.two_pow_pos _), Nat.div_eq_of_lt ha, Nat.add_zero, Nat.mul_comm op, Nat.mul_add_mod,
    Nat.mod_eq_of_lt hs]

theorem addrField_wordOf (ha : addr < 2 ^ W.aw) : addrField W (wordOf W op size addr) = addr := by
  rw [addrField, wordOf, pow_sw_add_aw, ← Nat.mul_assoc, ← Nat.add_mul, Nat.mul_comm (_ + _), Nat.mul_add_mod,
    Nat.mod_eq_of_lt ha]

/-- A word is its three fields of format R side by side (R51). -/
theorem wordOf_fields {cmd : Nat} (h : cmd < 2 ^ W.cw) :
    wordOf W (opField W cmd) (sizeField W cmd) (addrField W cmd) = cmd := by
  have ho : cmd / 2 ^ (W.sw + W.aw) < 4 := by
    rw [pow_cw, Nat.mul_comm] at h
    exact Nat.div_lt_of_lt_mul h
  rw [wordOf, opField, sizeField, addrField, Nat.mod_eq_of_lt ho, pow_sw_add_aw, Nat.mul_comm (2 ^ W.sw),
    ← Nat.div_div_eq_div_mul, Nat.mul_comm (2 ^ W.aw) (2 ^ W.sw), ← Nat.mul_assoc, ← Nat.add_mul,
    Nat.div_add_mod', Nat.div_add_mod']

/-- Where the record commands' words decode to: their own row, with the operands as they stand (R53, R54). -/
theorem decode_wordOf_two (hs : size < 2 ^ W.sw) (ha : addr < 2 ^ W.aw) :
    decode W (wordOf W 2 size addr) = .wrrec addr size := by
  simp [decode, opField_wordOf (op := 2) (by decide) hs ha, sizeField_wordOf hs ha, addrField_wordOf ha]

theorem decode_wordOf_three (hs : size < 2 ^ W.sw) (ha : addr < 2 ^ W.aw) :
    decode W (wordOf W 3 size addr) = .rdrec addr size := by
  simp [decode, opField_wordOf (op := 3) (by decide) hs ha, sizeField_wordOf hs ha, addrField_wordOf ha]

/-! ## The masks of the default instance (R53) -/

/-- A mask of the bits from `k` up clears the bits below. -/
theorem and_opMask_toNat (w : BitVec 32) : (w &&& 0xC0000000#32).toNat = w.toNat / 2 ^ 30 * 2 ^ 30 := by
  have h : w &&& 0xC0000000#32 = w >>> 30 <<< 30 := by
    ext i hi
    by_cases h : i < 30
    · have : (0xC0000000#32)[i] = false := by interval_cases i <;> simp
      simp [this, h]
    · have : i = 30 ∨ i = 31 := by omega
      rcases this with rfl | rfl <;> simp
  rw [h, BitVec.toNat_shiftLeft, BitVec.toNat_ushiftRight, Nat.shiftRight_eq_div_pow, Nat.shiftLeft_eq]
  have := w.isLt
  omega

theorem and_upperMask_toNat (w : BitVec 32) : (w &&& 0xFFFF0000#32).toNat = w.toNat / 2 ^ 16 * 2 ^ 16 := by
  have h : w &&& 0xFFFF0000#32 = w >>> 16 <<< 16 := by
    ext i hi
    by_cases h : i < 16
    · have : (0xFFFF0000#32)[i] = false := by interval_cases i <;> simp
      simp [this, h]
    · have hm : (0xFFFF0000#32)[i] = true := by interval_cases i <;> simp
      have hi' : 16 + (i - 16) = i := by omega
      simp [hm, h, hi', BitVec.getLsbD_eq_getElem hi]
  rw [h, BitVec.toNat_shiftLeft, BitVec.toNat_ushiftRight, Nat.shiftRight_eq_div_pow, Nat.shiftLeft_eq]
  have := w.isLt
  omega

end Sys2Proof
end

