-- ==== Sys2Proof/Laws/Memory.lean ====
section
/-! SUPPORT. The store's contents: a read after a write, the canonical form, and what a write keeps (20_memory.md R31,
R32). -/

namespace Sys2Proof.Machine

@[simp] theorem read_nil (a : Nat) : Memory.read [] a = Memory.unlisted := rfl

@[simp] theorem wf_nil : Memory.wf [] = true := rfl

@[simp] theorem below_nil (n : Nat) : Memory.below [] n = true := rfl

theorem wf_cons {a : Nat} {v : Byte} {m : Memory} :
    Memory.wf ((a, v) :: m) = true ↔ (∀ c ∈ m, a < c.1) ∧ v ≠ Memory.unlisted ∧ Memory.wf m = true := by
  simp [Memory.wf, and_assoc]

/-- An address that no pair lists reads as an unlisted one. -/
theorem read_of_not_listed {m : Memory} {a : Nat} (h : ∀ c ∈ m, c.1 ≠ a) : Memory.read m a = Memory.unlisted := by
  induction m with
  | nil => rfl
  | cons c m ih =>
    obtain ⟨b, v⟩ := c
    have hb : b ≠ a := h (b, v) (by simp)
    simp only [Memory.read, if_neg hb.symm]
    exact ih fun c hc => h c (by simp [hc])

/-- What a write lists: the pairs it had, or the new one. -/
theorem mem_write {m : Memory} {a : Nat} {v : Byte} {c : Host.Cell} (h : c ∈ Memory.write m a v) :
    c ∈ m ∨ c = (a, v) := by
  induction m with
  | nil =>
    simp only [Memory.write] at h
    split at h
    · simp at h
    · exact .inr (by simpa using h)
  | cons d m ih =>
    obtain ⟨b, w⟩ := d
    simp only [Memory.write] at h
    split at h
    · split at h
      · exact .inl h
      · rcases List.mem_cons.1 h with rfl | h
        · exact .inr rfl
        · exact .inl h
    · split at h
      · split at h
        · exact .inl (by simp [h])
        · rcases List.mem_cons.1 h with rfl | h
          · exact .inr rfl
          · exact .inl (by simp [h])
      · rcases List.mem_cons.1 h with rfl | h
        · exact .inl (by simp)
        · rcases ih h with h | h
          · exact .inl (by simp [h])
          · exact .inr h

/-- A write keeps the canonical form. -/
theorem write_wf {m : Memory} (h : Memory.wf m = true) (a : Nat) (v : Byte) : Memory.wf (Memory.write m a v) = true := by
  induction m with
  | nil =>
    simp only [Memory.write]
    split
    · rfl
    · next hv => exact wf_cons.2 ⟨by simp, hv, rfl⟩
  | cons d m ih =>
    obtain ⟨b, w⟩ := d
    obtain ⟨hb, hw, hm⟩ := wf_cons.1 h
    simp only [Memory.write]
    split
    · next hab =>
      split
      · exact h
      · next hv =>
        refine wf_cons.2 ⟨fun c hc => ?_, hv, h⟩
        rcases List.mem_cons.1 hc with rfl | hc
        · exact hab
        · exact Nat.lt_trans hab (hb c hc)
    · next hab =>
      split
      · next he =>
        split
        · exact hm
        · next hv => exact wf_cons.2 ⟨fun c hc => he ▸ hb c hc, hv, hm⟩
      · next he =>
        refine wf_cons.2 ⟨fun c hc => ?_, hw, ih hm⟩
        rcases mem_write hc with hc | rfl
        · exact hb c hc
        · have : b ≤ a := Nat.le_of_not_lt hab
          exact Nat.lt_of_le_of_ne this (Ne.symm he)

/-- A write inside the store keeps the contents inside it. -/
theorem write_below {m : Memory} {n a : Nat} (h : Memory.below m n = true) (ha : a < n) (v : Byte) :
    Memory.below (Memory.write m a v) n = true := by
  simp only [Memory.below, List.all_eq_true, decide_eq_true_eq] at h ⊢
  intro c hc
  rcases mem_write hc with hc | rfl
  · exact h c hc
  · exact ha

/-- A read after a write to the same cell gives the value written (R31, R32). -/
@[simp] theorem read_write_same {m : Memory} (h : Memory.wf m = true) (a : Nat) (v : Byte) :
    Memory.read (Memory.write m a v) a = v := by
  induction m with
  | nil =>
    simp only [Memory.write]
    split
    · next hv => simp [hv]
    · simp [Memory.read]
  | cons d m ih =>
    obtain ⟨b, w⟩ := d
    obtain ⟨hb, hw, hm⟩ := wf_cons.1 h
    simp only [Memory.write]
    split
    · next hab =>
      split
      · next hv =>
        rw [hv]
        refine read_of_not_listed fun c hc => ?_
        rcases List.mem_cons.1 hc with rfl | hc
        · exact Nat.ne_of_gt hab
        · exact Nat.ne_of_gt (Nat.lt_trans hab (hb c hc))
      · simp [Memory.read]
    · split
      · next he =>
        split
        · next hv =>
          rw [hv]
          exact read_of_not_listed fun c hc => Nat.ne_of_gt (he ▸ hb c hc)
        · simp [Memory.read]
      · next he => simpa [Memory.read, he] using ih hm

/-- A write leaves every other cell as it was (R32). -/
theorem read_write_other {m : Memory} {a c : Nat} (hc : c ≠ a) (v : Byte) :
    Memory.read (Memory.write m a v) c = Memory.read m c := by
  induction m with
  | nil =>
    simp only [Memory.write]
    split <;> simp [Memory.read, hc]
  | cons d m ih =>
    obtain ⟨b, w⟩ := d
    simp only [Memory.write]
    split
    · split <;> simp [Memory.read, hc]
    · split
      · next he =>
        subst he
        split <;> simp [Memory.read, hc]
      · simp only [Memory.read, ih]

/-- A read after a write, in one form. -/
theorem read_write {m : Memory} (h : Memory.wf m = true) (a c : Nat) (v : Byte) :
    Memory.read (Memory.write m a v) c = if c = a then v else Memory.read m c := by
  split
  · next he => rw [he, read_write_same h]
  · next he => exact read_write_other he v

@[simp] theorem payloadOf_length (m : Memory) (a n : Nat) : (payloadOf m a n).length = n := by
  simp [payloadOf]

theorem payloadOf_succ (m : Memory) (a n : Nat) :
    payloadOf m a (n + 1) = payloadOf m a n ++ [Memory.read m (a + 1 + n)] := by
  simp [payloadOf, List.range_succ]

/-- Two stores that agree on a record's payload cells have the same payload there. -/
theorem payloadOf_congr {m m' : Memory} {a n : Nat}
    (h : ∀ i < n, Memory.read m' (a + 1 + i) = Memory.read m (a + 1 + i)) : payloadOf m' a n = payloadOf m a n := by
  simp only [payloadOf]
  exact List.map_congr_left fun i hi => h i (List.mem_range.1 hi)

/-- A write outside a record's payload cells leaves its payload as it was. -/
theorem payloadOf_write_outside {m : Memory} {a n c : Nat} (h : c ≤ a ∨ a + n < c) (v : Byte) :
    payloadOf (Memory.write m c v) a n = payloadOf m a n :=
  payloadOf_congr fun i hi => read_write_other (by omega) v

end Sys2Proof.Machine
end

