-- ==== Sys2Proof/Laws/State.lean ====
section
/-! SUPPORT. One lemma per field per update of State, true by unfolding, so that no later proof unfolds an update. -/

namespace Sys2Proof.Machine

variable (s : State)

/-! ## `State.enter` -/

@[simp] theorem enter_phase (p : Phase) : (s.enter p).phase = p := rfl
@[simp] theorem enter_acc (p : Phase) : (s.enter p).acc = s.acc := rfl
@[simp] theorem enter_addr (p : Phase) : (s.enter p).addr = s.addr := rfl
@[simp] theorem enter_size (p : Phase) : (s.enter p).size = s.size := rfl
@[simp] theorem enter_idx (p : Phase) : (s.enter p).idx = s.idx := rfl
@[simp] theorem enter_tmp (p : Phase) : (s.enter p).tmp = s.tmp := rfl
@[simp] theorem enter_store (p : Phase) : (s.enter p).store = s.store := rfl
@[simp] theorem enter_src (p : Phase) : (s.enter p).src = s.src := rfl
@[simp] theorem enter_dst (p : Phase) : (s.enter p).dst = s.dst := rfl
@[simp] theorem enter_responses (p : Phase) : (s.enter p).responses = s.responses := rfl
@[simp] theorem enter_history (p : Phase) : (s.enter p).history = s.history := rfl
@[simp] theorem enter_hostMoves (p : Phase) : (s.enter p).hostMoves = s.hostMoves := rfl
@[simp] theorem enter_powerCuts (p : Phase) : (s.enter p).powerCuts = s.powerCuts := rfl
@[simp] theorem enter_draws (p : Phase) : (s.enter p).draws = s.draws := rfl
@[simp] theorem enter_params (p : Phase) : (s.enter p).params = s.params := rfl

/-! ## `State.latch` -/

@[simp] theorem latch_phase (b : Byte) : (s.latch b).phase = s.phase := rfl
@[simp] theorem latch_acc (b : Byte) : (s.latch b).acc = s.acc := rfl
@[simp] theorem latch_addr (b : Byte) : (s.latch b).addr = s.addr := rfl
@[simp] theorem latch_size (b : Byte) : (s.latch b).size = s.size := rfl
@[simp] theorem latch_idx (b : Byte) : (s.latch b).idx = s.idx := rfl
@[simp] theorem latch_tmp (b : Byte) : (s.latch b).tmp = b := rfl
@[simp] theorem latch_store (b : Byte) : (s.latch b).store = s.store := rfl
@[simp] theorem latch_src (b : Byte) : (s.latch b).src = s.src := rfl
@[simp] theorem latch_dst (b : Byte) : (s.latch b).dst = s.dst := rfl
@[simp] theorem latch_responses (b : Byte) : (s.latch b).responses = s.responses := rfl
@[simp] theorem latch_history (b : Byte) : (s.latch b).history = s.history := rfl
@[simp] theorem latch_hostMoves (b : Byte) : (s.latch b).hostMoves = s.hostMoves := rfl
@[simp] theorem latch_powerCuts (b : Byte) : (s.latch b).powerCuts = s.powerCuts := rfl
@[simp] theorem latch_draws (b : Byte) : (s.latch b).draws = s.draws := rfl
@[simp] theorem latch_params (b : Byte) : (s.latch b).params = s.params := rfl

/-! ## `State.fold` -/

@[simp] theorem fold_phase (b : Byte) : (s.fold b).phase = s.phase := rfl
@[simp] theorem fold_acc (b : Byte) : (s.fold b).acc = crc8Update s.acc b := rfl
@[simp] theorem fold_addr (b : Byte) : (s.fold b).addr = s.addr := rfl
@[simp] theorem fold_size (b : Byte) : (s.fold b).size = s.size := rfl
@[simp] theorem fold_idx (b : Byte) : (s.fold b).idx = s.idx := rfl
@[simp] theorem fold_tmp (b : Byte) : (s.fold b).tmp = s.tmp := rfl
@[simp] theorem fold_store (b : Byte) : (s.fold b).store = s.store := rfl
@[simp] theorem fold_src (b : Byte) : (s.fold b).src = s.src := rfl
@[simp] theorem fold_dst (b : Byte) : (s.fold b).dst = s.dst := rfl
@[simp] theorem fold_responses (b : Byte) : (s.fold b).responses = s.responses := rfl
@[simp] theorem fold_history (b : Byte) : (s.fold b).history = s.history := rfl
@[simp] theorem fold_hostMoves (b : Byte) : (s.fold b).hostMoves = s.hostMoves := rfl
@[simp] theorem fold_powerCuts (b : Byte) : (s.fold b).powerCuts = s.powerCuts := rfl
@[simp] theorem fold_draws (b : Byte) : (s.fold b).draws = s.draws := rfl
@[simp] theorem fold_params (b : Byte) : (s.fold b).params = s.params := rfl

/-! ## `State.advance` -/

@[simp] theorem advance_phase : s.advance.phase = s.phase := rfl
@[simp] theorem advance_acc : s.advance.acc = s.acc := rfl
@[simp] theorem advance_addr : s.advance.addr = s.addr := rfl
@[simp] theorem advance_size : s.advance.size = s.size := rfl
@[simp] theorem advance_idx : s.advance.idx = s.idx + 1 := rfl
@[simp] theorem advance_tmp : s.advance.tmp = s.tmp := rfl
@[simp] theorem advance_store : s.advance.store = s.store := rfl
@[simp] theorem advance_src : s.advance.src = s.src := rfl
@[simp] theorem advance_dst : s.advance.dst = s.dst := rfl
@[simp] theorem advance_responses : s.advance.responses = s.responses := rfl
@[simp] theorem advance_history : s.advance.history = s.history := rfl
@[simp] theorem advance_hostMoves : s.advance.hostMoves = s.hostMoves := rfl
@[simp] theorem advance_powerCuts : s.advance.powerCuts = s.powerCuts := rfl
@[simp] theorem advance_draws : s.advance.draws = s.draws := rfl
@[simp] theorem advance_params : s.advance.params = s.params := rfl

/-! ## `State.rewind` -/

@[simp] theorem rewind_phase : s.rewind.phase = s.phase := rfl
@[simp] theorem rewind_acc : s.rewind.acc = s.acc := rfl
@[simp] theorem rewind_addr : s.rewind.addr = s.addr := rfl
@[simp] theorem rewind_size : s.rewind.size = s.size := rfl
@[simp] theorem rewind_idx : s.rewind.idx = 0 := rfl
@[simp] theorem rewind_tmp : s.rewind.tmp = s.tmp := rfl
@[simp] theorem rewind_store : s.rewind.store = s.store := rfl
@[simp] theorem rewind_src : s.rewind.src = s.src := rfl
@[simp] theorem rewind_dst : s.rewind.dst = s.dst := rfl
@[simp] theorem rewind_responses : s.rewind.responses = s.responses := rfl
@[simp] theorem rewind_history : s.rewind.history = s.history := rfl
@[simp] theorem rewind_hostMoves : s.rewind.hostMoves = s.hostMoves := rfl
@[simp] theorem rewind_powerCuts : s.rewind.powerCuts = s.powerCuts := rfl
@[simp] theorem rewind_draws : s.rewind.draws = s.draws := rfl
@[simp] theorem rewind_params : s.rewind.params = s.params := rfl

/-! ## `State.accept` -/

@[simp] theorem accept_phase (a n : Nat) (p : Phase) : (s.accept a n p).phase = p := rfl
@[simp] theorem accept_acc (a n : Nat) (p : Phase) : (s.accept a n p).acc = crcInit := rfl
@[simp] theorem accept_addr (a n : Nat) (p : Phase) : (s.accept a n p).addr = a := rfl
@[simp] theorem accept_size (a n : Nat) (p : Phase) : (s.accept a n p).size = n := rfl
@[simp] theorem accept_idx (a n : Nat) (p : Phase) : (s.accept a n p).idx = 0 := rfl
@[simp] theorem accept_tmp (a n : Nat) (p : Phase) : (s.accept a n p).tmp = s.tmp := rfl
@[simp] theorem accept_store (a n : Nat) (p : Phase) : (s.accept a n p).store = s.store := rfl
@[simp] theorem accept_src (a n : Nat) (p : Phase) : (s.accept a n p).src = s.src := rfl
@[simp] theorem accept_dst (a n : Nat) (p : Phase) : (s.accept a n p).dst = s.dst := rfl
@[simp] theorem accept_responses (a n : Nat) (p : Phase) : (s.accept a n p).responses = s.responses := rfl
@[simp] theorem accept_history (a n : Nat) (p : Phase) : (s.accept a n p).history = s.history := rfl
@[simp] theorem accept_hostMoves (a n : Nat) (p : Phase) : (s.accept a n p).hostMoves = s.hostMoves := rfl
@[simp] theorem accept_powerCuts (a n : Nat) (p : Phase) : (s.accept a n p).powerCuts = s.powerCuts := rfl
@[simp] theorem accept_draws (a n : Nat) (p : Phase) : (s.accept a n p).draws = s.draws := rfl
@[simp] theorem accept_params (a n : Nat) (p : Phase) : (s.accept a n p).params = s.params := rfl

/-! ## `State.note` -/

@[simp] theorem note_phase (x : Access) : (s.note x).phase = s.phase := rfl
@[simp] theorem note_acc (x : Access) : (s.note x).acc = s.acc := rfl
@[simp] theorem note_addr (x : Access) : (s.note x).addr = s.addr := rfl
@[simp] theorem note_size (x : Access) : (s.note x).size = s.size := rfl
@[simp] theorem note_idx (x : Access) : (s.note x).idx = s.idx := rfl
@[simp] theorem note_tmp (x : Access) : (s.note x).tmp = s.tmp := rfl
@[simp] theorem note_store (x : Access) : (s.note x).store = s.store := rfl
@[simp] theorem note_src (x : Access) : (s.note x).src = s.src := rfl
@[simp] theorem note_dst (x : Access) : (s.note x).dst = s.dst := rfl
@[simp] theorem note_responses (x : Access) : (s.note x).responses = s.responses := rfl
@[simp] theorem note_history (x : Access) : (s.note x).history = s.history ++ [x] := rfl
@[simp] theorem note_hostMoves (x : Access) : (s.note x).hostMoves = s.hostMoves := rfl
@[simp] theorem note_powerCuts (x : Access) : (s.note x).powerCuts = s.powerCuts := rfl
@[simp] theorem note_draws (x : Access) : (s.note x).draws = s.draws := rfl
@[simp] theorem note_params (x : Access) : (s.note x).params = s.params := rfl

/-! ## `State.putStore` -/

@[simp] theorem putStore_phase (m : Memory) : (s.putStore m).phase = s.phase := rfl
@[simp] theorem putStore_acc (m : Memory) : (s.putStore m).acc = s.acc := rfl
@[simp] theorem putStore_addr (m : Memory) : (s.putStore m).addr = s.addr := rfl
@[simp] theorem putStore_size (m : Memory) : (s.putStore m).size = s.size := rfl
@[simp] theorem putStore_idx (m : Memory) : (s.putStore m).idx = s.idx := rfl
@[simp] theorem putStore_tmp (m : Memory) : (s.putStore m).tmp = s.tmp := rfl
@[simp] theorem putStore_store (m : Memory) : (s.putStore m).store = m := rfl
@[simp] theorem putStore_src (m : Memory) : (s.putStore m).src = s.src := rfl
@[simp] theorem putStore_dst (m : Memory) : (s.putStore m).dst = s.dst := rfl
@[simp] theorem putStore_responses (m : Memory) : (s.putStore m).responses = s.responses := rfl
@[simp] theorem putStore_history (m : Memory) : (s.putStore m).history = s.history := rfl
@[simp] theorem putStore_hostMoves (m : Memory) : (s.putStore m).hostMoves = s.hostMoves := rfl
@[simp] theorem putStore_powerCuts (m : Memory) : (s.putStore m).powerCuts = s.powerCuts := rfl
@[simp] theorem putStore_draws (m : Memory) : (s.putStore m).draws = s.draws := rfl
@[simp] theorem putStore_params (m : Memory) : (s.putStore m).params = s.params := rfl

/-! ## `State.putSrc` -/

@[simp] theorem putSrc_phase (bs : List Byte) : (s.putSrc bs).phase = s.phase := rfl
@[simp] theorem putSrc_acc (bs : List Byte) : (s.putSrc bs).acc = s.acc := rfl
@[simp] theorem putSrc_addr (bs : List Byte) : (s.putSrc bs).addr = s.addr := rfl
@[simp] theorem putSrc_size (bs : List Byte) : (s.putSrc bs).size = s.size := rfl
@[simp] theorem putSrc_idx (bs : List Byte) : (s.putSrc bs).idx = s.idx := rfl
@[simp] theorem putSrc_tmp (bs : List Byte) : (s.putSrc bs).tmp = s.tmp := rfl
@[simp] theorem putSrc_store (bs : List Byte) : (s.putSrc bs).store = s.store := rfl
@[simp] theorem putSrc_src (bs : List Byte) : (s.putSrc bs).src = bs := rfl
@[simp] theorem putSrc_dst (bs : List Byte) : (s.putSrc bs).dst = s.dst := rfl
@[simp] theorem putSrc_responses (bs : List Byte) : (s.putSrc bs).responses = s.responses := rfl
@[simp] theorem putSrc_history (bs : List Byte) : (s.putSrc bs).history = s.history := rfl
@[simp] theorem putSrc_hostMoves (bs : List Byte) : (s.putSrc bs).hostMoves = s.hostMoves := rfl
@[simp] theorem putSrc_powerCuts (bs : List Byte) : (s.putSrc bs).powerCuts = s.powerCuts := rfl
@[simp] theorem putSrc_draws (bs : List Byte) : (s.putSrc bs).draws = s.draws := rfl
@[simp] theorem putSrc_params (bs : List Byte) : (s.putSrc bs).params = s.params := rfl

/-! ## `State.putDst` -/

@[simp] theorem putDst_phase (bs : List Byte) : (s.putDst bs).phase = s.phase := rfl
@[simp] theorem putDst_acc (bs : List Byte) : (s.putDst bs).acc = s.acc := rfl
@[simp] theorem putDst_addr (bs : List Byte) : (s.putDst bs).addr = s.addr := rfl
@[simp] theorem putDst_size (bs : List Byte) : (s.putDst bs).size = s.size := rfl
@[simp] theorem putDst_idx (bs : List Byte) : (s.putDst bs).idx = s.idx := rfl
@[simp] theorem putDst_tmp (bs : List Byte) : (s.putDst bs).tmp = s.tmp := rfl
@[simp] theorem putDst_store (bs : List Byte) : (s.putDst bs).store = s.store := rfl
@[simp] theorem putDst_src (bs : List Byte) : (s.putDst bs).src = s.src := rfl
@[simp] theorem putDst_dst (bs : List Byte) : (s.putDst bs).dst = bs := rfl
@[simp] theorem putDst_responses (bs : List Byte) : (s.putDst bs).responses = s.responses := rfl
@[simp] theorem putDst_history (bs : List Byte) : (s.putDst bs).history = s.history := rfl
@[simp] theorem putDst_hostMoves (bs : List Byte) : (s.putDst bs).hostMoves = s.hostMoves := rfl
@[simp] theorem putDst_powerCuts (bs : List Byte) : (s.putDst bs).powerCuts = s.powerCuts := rfl
@[simp] theorem putDst_draws (bs : List Byte) : (s.putDst bs).draws = s.draws := rfl
@[simp] theorem putDst_params (bs : List Byte) : (s.putDst bs).params = s.params := rfl

/-! ## `State.putMoves` -/

@[simp] theorem putMoves_phase (ms : List HostMove) : (s.putMoves ms).phase = s.phase := rfl
@[simp] theorem putMoves_acc (ms : List HostMove) : (s.putMoves ms).acc = s.acc := rfl
@[simp] theorem putMoves_addr (ms : List HostMove) : (s.putMoves ms).addr = s.addr := rfl
@[simp] theorem putMoves_size (ms : List HostMove) : (s.putMoves ms).size = s.size := rfl
@[simp] theorem putMoves_idx (ms : List HostMove) : (s.putMoves ms).idx = s.idx := rfl
@[simp] theorem putMoves_tmp (ms : List HostMove) : (s.putMoves ms).tmp = s.tmp := rfl
@[simp] theorem putMoves_store (ms : List HostMove) : (s.putMoves ms).store = s.store := rfl
@[simp] theorem putMoves_src (ms : List HostMove) : (s.putMoves ms).src = s.src := rfl
@[simp] theorem putMoves_dst (ms : List HostMove) : (s.putMoves ms).dst = s.dst := rfl
@[simp] theorem putMoves_responses (ms : List HostMove) : (s.putMoves ms).responses = s.responses := rfl
@[simp] theorem putMoves_history (ms : List HostMove) : (s.putMoves ms).history = s.history := rfl
@[simp] theorem putMoves_hostMoves (ms : List HostMove) : (s.putMoves ms).hostMoves = ms := rfl
@[simp] theorem putMoves_powerCuts (ms : List HostMove) : (s.putMoves ms).powerCuts = s.powerCuts := rfl
@[simp] theorem putMoves_draws (ms : List HostMove) : (s.putMoves ms).draws = s.draws := rfl
@[simp] theorem putMoves_params (ms : List HostMove) : (s.putMoves ms).params = s.params := rfl

/-! ## `State.putCuts` -/

@[simp] theorem putCuts_phase (cs : List PowerCut) : (s.putCuts cs).phase = s.phase := rfl
@[simp] theorem putCuts_acc (cs : List PowerCut) : (s.putCuts cs).acc = s.acc := rfl
@[simp] theorem putCuts_addr (cs : List PowerCut) : (s.putCuts cs).addr = s.addr := rfl
@[simp] theorem putCuts_size (cs : List PowerCut) : (s.putCuts cs).size = s.size := rfl
@[simp] theorem putCuts_idx (cs : List PowerCut) : (s.putCuts cs).idx = s.idx := rfl
@[simp] theorem putCuts_tmp (cs : List PowerCut) : (s.putCuts cs).tmp = s.tmp := rfl
@[simp] theorem putCuts_store (cs : List PowerCut) : (s.putCuts cs).store = s.store := rfl
@[simp] theorem putCuts_src (cs : List PowerCut) : (s.putCuts cs).src = s.src := rfl
@[simp] theorem putCuts_dst (cs : List PowerCut) : (s.putCuts cs).dst = s.dst := rfl
@[simp] theorem putCuts_responses (cs : List PowerCut) : (s.putCuts cs).responses = s.responses := rfl
@[simp] theorem putCuts_history (cs : List PowerCut) : (s.putCuts cs).history = s.history := rfl
@[simp] theorem putCuts_hostMoves (cs : List PowerCut) : (s.putCuts cs).hostMoves = s.hostMoves := rfl
@[simp] theorem putCuts_powerCuts (cs : List PowerCut) : (s.putCuts cs).powerCuts = cs := rfl
@[simp] theorem putCuts_draws (cs : List PowerCut) : (s.putCuts cs).draws = s.draws := rfl
@[simp] theorem putCuts_params (cs : List PowerCut) : (s.putCuts cs).params = s.params := rfl

/-! ## `State.respond` -/

@[simp] theorem respond_phase (st : Status) (r : Byte) : (s.respond st r).phase = s.phase := rfl
@[simp] theorem respond_acc (st : Status) (r : Byte) : (s.respond st r).acc = s.acc := rfl
@[simp] theorem respond_addr (st : Status) (r : Byte) : (s.respond st r).addr = s.addr := rfl
@[simp] theorem respond_size (st : Status) (r : Byte) : (s.respond st r).size = s.size := rfl
@[simp] theorem respond_idx (st : Status) (r : Byte) : (s.respond st r).idx = s.idx := rfl
@[simp] theorem respond_tmp (st : Status) (r : Byte) : (s.respond st r).tmp = s.tmp := rfl
@[simp] theorem respond_store (st : Status) (r : Byte) : (s.respond st r).store = s.store := rfl
@[simp] theorem respond_src (st : Status) (r : Byte) : (s.respond st r).src = s.src := rfl
@[simp] theorem respond_dst (st : Status) (r : Byte) : (s.respond st r).dst = s.dst := rfl
@[simp] theorem respond_responses (st : Status) (r : Byte) : (s.respond st r).responses = s.responses ++ [responseWord st r] := rfl
@[simp] theorem respond_history (st : Status) (r : Byte) : (s.respond st r).history = s.history := rfl
@[simp] theorem respond_hostMoves (st : Status) (r : Byte) : (s.respond st r).hostMoves = s.hostMoves := rfl
@[simp] theorem respond_powerCuts (st : Status) (r : Byte) : (s.respond st r).powerCuts = s.powerCuts := rfl
@[simp] theorem respond_draws (st : Status) (r : Byte) : (s.respond st r).draws = s.draws := rfl
@[simp] theorem respond_params (st : Status) (r : Byte) : (s.respond st r).params = s.params := rfl

/-! ## `State.issue` -/

@[simp] theorem issue_phase (w : Nat) : (s.issue w).phase = s.phase := rfl
@[simp] theorem issue_acc (w : Nat) : (s.issue w).acc = s.acc := rfl
@[simp] theorem issue_addr (w : Nat) : (s.issue w).addr = s.addr := rfl
@[simp] theorem issue_size (w : Nat) : (s.issue w).size = s.size := rfl
@[simp] theorem issue_idx (w : Nat) : (s.issue w).idx = s.idx := rfl
@[simp] theorem issue_tmp (w : Nat) : (s.issue w).tmp = s.tmp := rfl
@[simp] theorem issue_store (w : Nat) : (s.issue w).store = s.store := rfl
@[simp] theorem issue_src (w : Nat) : (s.issue w).src = s.src := rfl
@[simp] theorem issue_dst (w : Nat) : (s.issue w).dst = s.dst := rfl
@[simp] theorem issue_responses (w : Nat) : (s.issue w).responses = s.responses := rfl
@[simp] theorem issue_history (w : Nat) : (s.issue w).history = s.history := rfl
@[simp] theorem issue_hostMoves (w : Nat) : (s.issue w).hostMoves = .issue w :: s.hostMoves := rfl
@[simp] theorem issue_powerCuts (w : Nat) : (s.issue w).powerCuts = s.powerCuts := rfl
@[simp] theorem issue_draws (w : Nat) : (s.issue w).draws = s.draws := rfl
@[simp] theorem issue_params (w : Nat) : (s.issue w).params = s.params := rfl

/-! ## `State.presenting` -/

@[simp] theorem presenting_phase (w : Nat) : (s.presenting w).phase = .idle := rfl
@[simp] theorem presenting_acc (w : Nat) : (s.presenting w).acc = s.acc := rfl
@[simp] theorem presenting_addr (w : Nat) : (s.presenting w).addr = s.addr := rfl
@[simp] theorem presenting_size (w : Nat) : (s.presenting w).size = s.size := rfl
@[simp] theorem presenting_idx (w : Nat) : (s.presenting w).idx = s.idx := rfl
@[simp] theorem presenting_tmp (w : Nat) : (s.presenting w).tmp = s.tmp := rfl
@[simp] theorem presenting_store (w : Nat) : (s.presenting w).store = s.store := rfl
@[simp] theorem presenting_src (w : Nat) : (s.presenting w).src = s.src := rfl
@[simp] theorem presenting_dst (w : Nat) : (s.presenting w).dst = s.dst := rfl
@[simp] theorem presenting_responses (w : Nat) : (s.presenting w).responses = s.responses := rfl
@[simp] theorem presenting_history (w : Nat) : (s.presenting w).history = s.history := rfl
@[simp] theorem presenting_hostMoves (w : Nat) : (s.presenting w).hostMoves = .issue w :: s.hostMoves := rfl
@[simp] theorem presenting_powerCuts (w : Nat) : (s.presenting w).powerCuts = [] := rfl
@[simp] theorem presenting_draws (w : Nat) : (s.presenting w).draws = s.draws := rfl
@[simp] theorem presenting_params (w : Nat) : (s.presenting w).params = s.params := rfl

/-! ## `powerLoss` -/

@[simp] theorem powerLoss_phase (t : Option Byte) : (powerLoss t s).phase = .idle := rfl
@[simp] theorem powerLoss_acc (t : Option Byte) : (powerLoss t s).acc = Config.unspecifiedAcc s.draws := rfl
@[simp] theorem powerLoss_addr (t : Option Byte) : (powerLoss t s).addr = Config.unspecifiedAddr s.draws % 2 ^ s.params.widths.aw := rfl
@[simp] theorem powerLoss_size (t : Option Byte) : (powerLoss t s).size = Config.unspecifiedSize s.draws % 2 ^ s.params.widths.sw := rfl
@[simp] theorem powerLoss_idx (t : Option Byte) : (powerLoss t s).idx = Config.unspecifiedIdx s.draws % 2 ^ s.params.widths.sw := rfl
@[simp] theorem powerLoss_tmp (t : Option Byte) : (powerLoss t s).tmp = Config.unspecifiedTmp s.draws := rfl
@[simp] theorem powerLoss_store (t : Option Byte) : (powerLoss t s).store = s.storeAfterCut t := rfl
@[simp] theorem powerLoss_src (t : Option Byte) : (powerLoss t s).src = s.src := rfl
@[simp] theorem powerLoss_dst (t : Option Byte) : (powerLoss t s).dst = s.dst := rfl
@[simp] theorem powerLoss_responses (t : Option Byte) : (powerLoss t s).responses = s.responses := rfl
@[simp] theorem powerLoss_history (t : Option Byte) : (powerLoss t s).history = s.history := rfl
@[simp] theorem powerLoss_hostMoves (t : Option Byte) : (powerLoss t s).hostMoves = s.hostMoves := rfl
@[simp] theorem powerLoss_powerCuts (t : Option Byte) : (powerLoss t s).powerCuts = s.powerCuts := rfl
@[simp] theorem powerLoss_draws (t : Option Byte) : (powerLoss t s).draws = s.draws + 1 := rfl
@[simp] theorem powerLoss_params (t : Option Byte) : (powerLoss t s).params = s.params := rfl

end Sys2Proof.Machine
end

