-- ==== Sys2Proof/Laws/Ops.lean ====
section
/-! SUPPORT. For each shared operation, one lemma that says all it can do when it answers a next state, and when it does;
for each micro-step, the next state it answers. -/

namespace Sys2Proof.Machine

variable {s t : State} {a i : Nat} {v : Byte}

/-! ## Accesses -/

theorem readStore_next {k : Byte → State → Step} (h : readStore a s k = .next t) :
    a < s.params.storeSize ∧ k (Memory.read s.store a) (s.note (.storeRead a (Memory.read s.store a))) = .next t := by
  unfold readStore at h
  split at h
  · exact ⟨‹_›, h⟩
  · cases h

theorem readStore_inside {k : Byte → State → Step} (h : a < s.params.storeSize) :
    readStore a s k = k (Memory.read s.store a) (s.note (.storeRead a (Memory.read s.store a))) := if_pos h

theorem readStore_outside {k : Byte → State → Step} (h : s.params.storeSize ≤ a) :
    readStore a s k = .refused (.outsideStore a) := if_neg (Nat.not_lt.2 h)

theorem writeStore_next {k : State → Step} (h : writeStore a v s k = .next t) :
    a < s.params.storeSize ∧ k ((s.putStore (Memory.write s.store a v)).note (.storeWrite a v)) = .next t := by
  unfold writeStore at h
  split at h
  · exact ⟨‹_›, h⟩
  · cases h

theorem writeStore_inside {k : State → Step} (h : a < s.params.storeSize) :
    writeStore a v s k = k ((s.putStore (Memory.write s.store a v)).note (.storeWrite a v)) := if_pos h

theorem writeStore_outside {k : State → Step} (h : s.params.storeSize ≤ a) :
    writeStore a v s k = .refused (.outsideStore a) := if_neg (Nat.not_lt.2 h)

theorem readSource_next {k : Byte → State → Step} (h : readSource i s k = .next t) :
    ∃ b, s.src[i]? = some b ∧ k b (s.note (.srcRead i b)) = .next t := by
  unfold readSource at h
  split at h
  · exact ⟨_, ‹_›, h⟩
  · cases h

theorem readSource_some {k : Byte → State → Step} {b : Byte} (h : s.src[i]? = some b) :
    readSource i s k = k b (s.note (.srcRead i b)) := by
  simp [readSource, h]

theorem readSource_none {k : Byte → State → Step} (h : s.src.length ≤ i) :
    readSource i s k = .refused (.sourceTooShort i) := by
  simp [readSource, List.getElem?_eq_none h]

theorem writeDest_next {k : State → Step} (h : writeDest i v s k = .next t) :
    i < s.dst.length ∧ k ((s.putDst (s.dst.set i v)).note (.dstWrite i v)) = .next t := by
  unfold writeDest at h
  split at h
  · exact ⟨‹_›, h⟩
  · cases h

theorem writeDest_inside {k : State → Step} (h : i < s.dst.length) :
    writeDest i v s k = k ((s.putDst (s.dst.set i v)).note (.dstWrite i v)) := if_pos h

theorem writeDest_outside {k : State → Step} (h : s.dst.length ≤ i) :
    writeDest i v s k = .refused (.destinationTooShort i) := if_neg (Nat.not_lt.2 h)

/-! ## What the commands share -/

@[simp] theorem cmdReady_iff : s.cmdReady = true ↔ s.phase = .idle := by simp [State.cmdReady]

@[simp] theorem busy_iff : s.busy = true ↔ s.phase ≠ .idle := by simp [State.busy]

theorem whenReady_idle {k : State → Step} (h : s.phase = .idle) : whenReady s k = k s := if_pos (cmdReady_iff.2 h)

theorem whenReady_busy {k : State → Step} (h : s.phase ≠ .idle) : whenReady s k = .next s :=
  if_neg fun hr => h (cmdReady_iff.1 hr)

/-- The core has no fault outcome (R100). -/
theorem outcome_not_fault {x : Step} {f : Fault} : x ≠ .fault f := nomatch f

/-! ## Micro-steps of WRREC -/

theorem microWRdold_next (h : microWRdold s = .next t) :
    leadAddr s.addr < s.params.storeSize ∧
      t = { s with tmp := Memory.read s.store (leadAddr s.addr), phase := .wPlace,
                   history := s.history ++ [.storeRead (leadAddr s.addr) (Memory.read s.store (leadAddr s.addr))] } := by
  obtain ⟨ha, h⟩ := readStore_next h
  cases h
  exact ⟨ha, rfl⟩

theorem microWPlace_next (h : microWPlace s = .next t) :
    trailAddr s.addr s.size < s.params.storeSize ∧
      t = { s with store := Memory.write s.store (trailAddr s.addr s.size) s.tmp, phase := .wPayload,
                   history := s.history ++ [.storeWrite (trailAddr s.addr s.size) s.tmp] } := by
  obtain ⟨ha, h⟩ := writeStore_next h
  cases h
  exact ⟨ha, rfl⟩

theorem microWPayload_next (h : microWPayload s = .next t) :
    ∃ b, s.src[s.idx]? = some b ∧ payloadAddr s.addr s.idx < s.params.storeSize ∧
      t = { s with store := Memory.write s.store (payloadAddr s.addr s.idx) b, acc := crc8Update s.acc b,
                   idx := s.idx + 1, phase := if s.idx + 1 = s.size then .wLead else .wPayload,
                   history := s.history ++ [.srcRead s.idx b, .storeWrite (payloadAddr s.addr s.idx) b] } := by
  obtain ⟨b, hb, h⟩ := readSource_next h
  obtain ⟨ha, h⟩ := writeStore_next h
  cases h
  refine ⟨b, hb, ha, ?_⟩
  simp [State.enter, State.advance, State.fold, State.note, State.putStore]

theorem microWLead_next (h : microWLead s = .next t) :
    leadAddr s.addr < s.params.storeSize ∧
      t = { s with store := Memory.write s.store (leadAddr s.addr) s.acc, phase := .wTrail,
                   history := s.history ++ [.storeWrite (leadAddr s.addr) s.acc] } := by
  obtain ⟨ha, h⟩ := writeStore_next h
  cases h
  exact ⟨ha, rfl⟩

theorem microWTrail_next (h : microWTrail s = .next t) :
    trailAddr s.addr s.size < s.params.storeSize ∧
      t = { s with store := Memory.write s.store (trailAddr s.addr s.size) (~~~s.acc), phase := .idle,
                   responses := s.responses ++ [responseWord .ok 0],
                   history := s.history ++ [.storeWrite (trailAddr s.addr s.size) (~~~s.acc)] } := by
  obtain ⟨ha, h⟩ := writeStore_next h
  cases h
  exact ⟨ha, rfl⟩

/-! ## Micro-steps of RDREC -/

theorem microRFold_next (h : microRFold s = .next t) :
    payloadAddr s.addr s.idx < s.params.storeSize ∧
      t = { s with acc := crc8Update s.acc (Memory.read s.store (payloadAddr s.addr s.idx)), idx := s.idx + 1,
                   phase := if s.idx + 1 = s.size then .rLead else .rFold,
                   history := s.history ++
                     [.storeRead (payloadAddr s.addr s.idx) (Memory.read s.store (payloadAddr s.addr s.idx))] } := by
  obtain ⟨ha, h⟩ := readStore_next h
  cases h
  exact ⟨ha, rfl⟩

theorem microRLead_next (h : microRLead s = .next t) :
    leadAddr s.addr < s.params.storeSize ∧
      ((Memory.read s.store (leadAddr s.addr) = s.acc ∧
          t = { s with phase := .rTrail,
                       history := s.history ++ [.storeRead (leadAddr s.addr) (Memory.read s.store (leadAddr s.addr))] }) ∨
        (Memory.read s.store (leadAddr s.addr) ≠ s.acc ∧
          t = { s with phase := .idle, responses := s.responses ++ [responseWord .verifyFail 0],
                       history := s.history ++
                         [.storeRead (leadAddr s.addr) (Memory.read s.store (leadAddr s.addr))] })) := by
  obtain ⟨ha, h⟩ := readStore_next h
  refine ⟨ha, ?_⟩
  split at h
  · next hb =>
    cases h
    exact .inl ⟨hb, rfl⟩
  · next hb =>
    cases h
    exact .inr ⟨hb, rfl⟩

theorem microRTrail_next (h : microRTrail s = .next t) :
    trailAddr s.addr s.size < s.params.storeSize ∧
      ((Memory.read s.store (trailAddr s.addr s.size) = ~~~s.acc ∧
          t = { s with phase := .rCopy, idx := 0,
                       history := s.history ++
                         [.storeRead (trailAddr s.addr s.size) (Memory.read s.store (trailAddr s.addr s.size))] }) ∨
        (Memory.read s.store (trailAddr s.addr s.size) ≠ ~~~s.acc ∧
          t = { s with phase := .idle, responses := s.responses ++ [responseWord .verifyFail 0],
                       history := s.history ++
                         [.storeRead (trailAddr s.addr s.size)
                           (Memory.read s.store (trailAddr s.addr s.size))] })) := by
  obtain ⟨ha, h⟩ := readStore_next h
  refine ⟨ha, ?_⟩
  split at h
  · next hb =>
    cases h
    exact .inl ⟨hb, rfl⟩
  · next hb =>
    cases h
    exact .inr ⟨hb, rfl⟩

theorem microRCopy_next (h : microRCopy s = .next t) :
    payloadAddr s.addr s.idx < s.params.storeSize ∧ s.idx < s.dst.length ∧
      t = { s with dst := s.dst.set s.idx (Memory.read s.store (payloadAddr s.addr s.idx)), idx := s.idx + 1,
                   phase := if s.idx + 1 = s.size then .idle else s.phase,
                   responses := if s.idx + 1 = s.size then s.responses ++ [responseWord .ok 0] else s.responses,
                   history := s.history ++
                     [.storeRead (payloadAddr s.addr s.idx) (Memory.read s.store (payloadAddr s.addr s.idx)),
                       .dstWrite s.idx (Memory.read s.store (payloadAddr s.addr s.idx))] } := by
  obtain ⟨ha, h⟩ := readStore_next h
  obtain ⟨hd, h⟩ := writeDest_next h
  refine ⟨ha, hd, ?_⟩
  simp only [note_idx, putDst_idx, note_size, putDst_size] at h
  cases h
  split <;> simp_all [State.enter, State.advance, State.respond, State.note, State.putDst]

end Sys2Proof.Machine
end

