-- ==== Sys2Proof/Laws/PerInstr.lean ====
section
/-! SUPPORT. The families of statements made per instruction: `EncodedInRow`, that on the default instance the word of a command
that fits its row matches that row of the opcode map, mask and match as R53 gives them. -/

namespace Sys2Proof.Laws

/-- The mask of a command's row (R53). -/
def rowMask : Instr → BitVec 32
  | .crcupd _ _ => 0xFFFF0000#32
  | .wrrec _ _ => 0xC0000000#32
  | .rdrec _ _ => 0xC0000000#32
  | .reserved _ => 0x00000000#32

/-- The match value of a command's row (R53). The constructor of reserved words also takes `op = 01` words whose `zero` field is
not zero, so nothing is asked of it here. -/
def rowMatch : Instr → BitVec 32
  | .crcupd _ _ => 0x40000000#32
  | .wrrec _ _ => 0x80000000#32
  | .rdrec _ _ => 0xC0000000#32
  | .reserved _ => 0x00000000#32

/-- `(cmd and mask) = match`, on the default instance. -/
def EncodedInRow.Statement (i : Instr) : Prop :=
  i.fitsRow .defaultInstance = true → BitVec.ofNat 32 (encode .defaultInstance i) &&& rowMask i = rowMatch i

theorem EncodedInRow.crcupd (acc data : Byte) : EncodedInRow.Statement (.crcupd acc data) := by
  intro _
  apply BitVec.eq_of_toNat_eq
  rw [rowMask, and_upperMask_toNat]
  have := acc.isLt
  have := data.isLt
  simp [encode, rowMatch]
  omega

theorem EncodedInRow.wrrec (addr size : Nat) : EncodedInRow.Statement (.wrrec addr size) := by
  intro h
  simp only [Instr.fitsRow, Bool.and_eq_true, decide_eq_true_eq] at h
  simp only [defaultInstance_aw, defaultInstance_sw] at h
  apply BitVec.eq_of_toNat_eq
  rw [rowMask, and_opMask_toNat]
  simp [encode, wordOf, rowMatch]
  omega

theorem EncodedInRow.rdrec (addr size : Nat) : EncodedInRow.Statement (.rdrec addr size) := by
  intro h
  simp only [Instr.fitsRow, Bool.and_eq_true, decide_eq_true_eq] at h
  simp only [defaultInstance_aw, defaultInstance_sw] at h
  apply BitVec.eq_of_toNat_eq
  rw [rowMask, and_opMask_toNat]
  simp [encode, wordOf, rowMatch]
  omega

theorem EncodedInRow.reserved (word : Nat) : EncodedInRow.Statement (.reserved word) := by
  intro _
  simp [encode, rowMask, rowMatch]

end Sys2Proof.Laws
end

