-- ==== Sys2Proof/Laws/Record.lean ====
section
/-! SUPPORT. Small facts about the operands, the payload index and the checksum of a growing payload. -/

namespace Sys2Proof.Machine

variable {W : Widths} {a n : Nat}

theorem legalOperands_iff :
    legalOperands W a n = true ↔ 1 ≤ n ∧ n < 2 ^ W.sw ∧ a + n + 1 ≤ W.lastAddress := by
  simp [legalOperands, and_assoc]

/-- Every address a micro-step of a legal record command forms is an address of the port (R56, R76). -/
theorem record_address_lt (h : legalOperands W a n = true) {x : Nat} (hx : x ≤ a + n + 1) : x < 2 ^ W.aw :=
  Nat.lt_of_le_of_lt (Nat.le_trans hx (legalOperands_iff.1 h).2.2) (lastAddress_lt W)

/-- Legal operands fit their registers (R12, R13). -/
theorem legal_operands_fit (h : legalOperands W a n = true) : a < 2 ^ W.aw ∧ n < 2 ^ W.sw :=
  ⟨record_address_lt h (by omega), (legalOperands_iff.1 h).2.1⟩

theorem take_succ_of_getElem? {bs : List Byte} {i : Nat} {b : Byte} (h : bs[i]? = some b) :
    bs.take (i + 1) = bs.take i ++ [b] := by
  rw [List.take_add_one, h]
  rfl

end Sys2Proof.Machine
end

