-- ==== Sys2Proof/Laws/Step.lean ====
section
/-! SUPPORT. What one step of the model can do: the inversion of step, of its powered part and of the commands'
acceptance. -/

namespace Sys2Proof.Machine

variable {s t : State}

theorem step_no_cuts (h : s.powerCuts = []) : step s = poweredStep s := by
  simp [step, modelStep, powerMove, h]

theorem step_cut_now {torn : Option Byte} {cs : List PowerCut} (h : s.powerCuts = ⟨0, torn⟩ :: cs) :
    step s = .next (powerLoss torn (s.putCuts cs)) := by
  simp [step, modelStep, powerMove, h]

theorem step_cut_later {n : Nat} {torn : Option Byte} {cs : List PowerCut} (h : s.powerCuts = ⟨n + 1, torn⟩ :: cs) :
    step s = poweredStep (s.putCuts (⟨n, torn⟩ :: cs)) := by
  simp [step, modelStep, powerMove, h]

/-- Every step is a power loss, or a powered step of the state with the power environment's list counted off. -/
theorem step_cases (s : State) :
    (∃ torn cs, s.powerCuts = ⟨0, torn⟩ :: cs ∧ step s = .next (powerLoss torn (s.putCuts cs))) ∨
      ∃ cs, step s = poweredStep (s.putCuts cs) := by
  rcases h : s.powerCuts with _ | ⟨⟨n, torn⟩, cs⟩
  · refine .inr ⟨[], ?_⟩
    rw [step_no_cuts h]
    congr 1
    simp [State.putCuts, ← h]
  · cases n with
    | zero => exact .inl ⟨torn, cs, rfl, step_cut_now h⟩
    | succ n => exact .inr ⟨_, step_cut_later h⟩

theorem poweredStep_busy (h : s.phase ≠ .idle) : poweredStep s = microStep s := if_pos (busy_iff.2 h)

theorem poweredStep_issue {w : Nat} {ms : List HostMove} (h : s.phase = .idle)
    (hm : s.hostMoves = .issue w :: ms) : poweredStep s = exec (decode s.params.widths w) (s.putMoves ms) := by
  simp [poweredStep, State.busy, h, presented, hm]

theorem poweredStep_setSource {bs : List Byte} {ms : List HostMove} (h : s.phase = .idle)
    (hm : s.hostMoves = .setSource bs :: ms) : poweredStep s = .next ((s.putSrc bs).putMoves ms) := by
  simp [poweredStep, State.busy, h, presented, hostMove, hm]

theorem poweredStep_setDest {bs : List Byte} {ms : List HostMove} (h : s.phase = .idle)
    (hm : s.hostMoves = .setDest bs :: ms) : poweredStep s = .next ((s.putDst bs).putMoves ms) := by
  simp [poweredStep, State.busy, h, presented, hostMove, hm]

theorem poweredStep_waiting (h : s.phase = .idle) (hm : s.hostMoves = []) : poweredStep s = .next s := by
  simp [poweredStep, State.busy, h, presented, hostMove, hm]

/-- The four ways an idle core spends a powered step. -/
theorem poweredStep_idle_cases (h : s.phase = .idle) :
    (∃ w ms, s.hostMoves = .issue w :: ms ∧ poweredStep s = exec (decode s.params.widths w) (s.putMoves ms)) ∨
      (∃ bs ms, s.hostMoves = .setSource bs :: ms ∧ poweredStep s = .next ((s.putSrc bs).putMoves ms)) ∨
      (∃ bs ms, s.hostMoves = .setDest bs :: ms ∧ poweredStep s = .next ((s.putDst bs).putMoves ms)) ∨
      (s.hostMoves = [] ∧ poweredStep s = .next s) := by
  rcases hm : s.hostMoves with _ | ⟨m, ms⟩
  · exact .inr (.inr (.inr ⟨rfl, poweredStep_waiting h hm⟩))
  · cases m with
    | issue w => exact .inl ⟨w, ms, rfl, poweredStep_issue h hm⟩
    | setSource bs => exact .inr (.inl ⟨bs, ms, rfl, poweredStep_setSource h hm⟩)
    | setDest bs => exact .inr (.inr (.inl ⟨bs, ms, rfl, poweredStep_setDest h hm⟩))

theorem exec_crcupd_eq (acc data : Byte) (s : State) : exec (.crcupd acc data) s = execCrcupd acc data s := rfl

theorem exec_wrrec_eq (a n : Nat) (s : State) : exec (.wrrec a n) s = execWrrec a n s := rfl

theorem exec_rdrec_eq (a n : Nat) (s : State) : exec (.rdrec a n) s = execRdrec a n s := rfl

theorem exec_reserved_eq (w : Nat) (s : State) : exec (.reserved w) s = execReserved w s := rfl

/-- All that presenting a command can do: a busy core does not accept it; an idle one responds at once or begins a
record command. -/
theorem exec_cases (i : Instr) (s : State) :
    (s.phase ≠ .idle ∧ exec i s = .next s) ∨
      (s.phase = .idle ∧
        ((∃ st r, exec i s = .next (s.respond st r)) ∨
          ∃ a n p, (p = .wRdold ∨ p = .rFold) ∧ legalOperands s.params.widths a n = true ∧ exec i s = .next (s.accept a n p))) := by
  by_cases h : s.phase = .idle
  · refine .inr ⟨h, ?_⟩
    cases i with
    | crcupd a d => exact .inl ⟨_, _, (exec_crcupd_eq ..).trans (whenReady_idle h)⟩
    | wrrec a n =>
      rw [exec_wrrec_eq, execWrrec, whenReady_idle h]
      split
      · next hl => exact .inr ⟨a, n, _, .inl rfl, hl, rfl⟩
      · exact .inl ⟨_, _, rfl⟩
    | rdrec a n =>
      rw [exec_rdrec_eq, execRdrec, whenReady_idle h]
      split
      · next hl => exact .inr ⟨a, n, _, .inr rfl, hl, rfl⟩
      · exact .inl ⟨_, _, rfl⟩
    | reserved w => exact .inl ⟨_, _, (exec_reserved_eq ..).trans (whenReady_idle h)⟩
  · refine .inl ⟨h, ?_⟩
    cases i
    · exact (exec_crcupd_eq ..).trans (whenReady_busy h)
    · exact (exec_wrrec_eq ..).trans (whenReady_busy h)
    · exact (exec_rdrec_eq ..).trans (whenReady_busy h)
    · exact (exec_reserved_eq ..).trans (whenReady_busy h)

end Sys2Proof.Machine
end

