-- ==== Sys2Proof/Laws/Run.lean ====
section
/-! SUPPORT. Runs of several steps, and when each micro-step completes: what the proofs about whole commands chain. -/

namespace Sys2Proof.Machine

variable {s t u : State}

@[simp] theorem runSteps_zero (s : State) : runSteps 0 s = .next s := rfl

theorem runSteps_succ {k : Nat} (h : step s = .next t) : runSteps (k + 1) s = runSteps k t := by
  simp [runSteps, h]

/-- Two runs in a row are one run. -/
theorem runSteps_add {j k : Nat} (h : runSteps j s = .next t) : runSteps (j + k) s = runSteps k t := by
  induction j generalizing s with
  | zero =>
    cases h
    simp
  | succ j ih =>
    cases hs : step s with
    | next u =>
      rw [runSteps_succ hs] at h
      rw [show j + 1 + k = (j + k) + 1 by omega, runSteps_succ hs]
      exact ih h
    | fault f => exact nomatch f
    | refused r =>
      simp only [runSteps, hs] at h
      cases h

/-- A run that answers a next state answers one after each of its beginnings. -/
theorem runSteps_prefix {j k : Nat} (h : runSteps (j + k) s = .next u) :
    ∃ t, runSteps j s = .next t ∧ runSteps k t = .next u := by
  induction j generalizing s with
  | zero => exact ⟨s, rfl, by simpa using h⟩
  | succ j ih =>
    rw [show j + 1 + k = (j + k) + 1 by omega] at h
    cases hs : step s with
    | next v =>
      rw [runSteps_succ hs] at h
      rw [runSteps_succ hs]
      exact ih h
    | fault f => exact nomatch f
    | refused r =>
      simp only [runSteps, hs] at h
      cases h

/-- With no power loss to come, a busy core's step is its micro-step. -/
theorem step_busy_no_cuts (hc : s.powerCuts = []) (hb : s.phase ≠ .idle) : step s = microStep s :=
  (step_no_cuts hc).trans (poweredStep_busy hb)

/-- The acceptance of a word that the host issues to a quiet core. -/
theorem step_issue {w : Nat} (h : s.Quiet) : step (s.issue w) = exec (decode s.params.widths w) s := by
  rw [step_no_cuts (s := s.issue w) h.2, poweredStep_issue (s := s.issue w) h.1 rfl]
  rfl

/-! ## The host waiting for its word to be taken (CRCFOLD, log entry 23) -/

theorem stepUntilTaken_taken {left fuel : Nat} (h : step s = .next t) (ht : t.hostMoves.length ≤ left) :
    stepUntilTaken left (fuel + 1) s = .next t := by
  simp [stepUntilTaken, h, ht]

theorem stepUntilTaken_waiting {left fuel : Nat} (h : step s = .next t) (ht : left < t.hostMoves.length) :
    stepUntilTaken left (fuel + 1) s = stepUntilTaken left fuel t := by
  simp [stepUntilTaken, h, Nat.not_le.2 ht]

/-- Two states of an idle core that power losses lead from one to the other: all but the data registers, the counter of the
free values and the power losses to come is the same. -/
def SameButPower (s t : State) : Prop :=
  t.phase = s.phase ∧ t.store = s.store ∧ t.src = s.src ∧ t.dst = s.dst ∧ t.responses = s.responses ∧
    t.history = s.history ∧ t.hostMoves = s.hostMoves ∧ t.params = s.params

theorem powerLoss_same_of_idle {torn : Option Byte} (h : s.phase = .idle) : SameButPower s (powerLoss torn s) := by
  simp [SameButPower, State.storeAfterCut, State.cellBeingWritten, h]

/-- All that happens until an idle core takes the word on the channel: power losses, which change nothing but the data
registers, and then the step that runs the word's command. -/
theorem stepUntilTaken_idle {fuel w : Nat} {ms : List HostMove} (hi : s.phase = .idle)
    (hm : s.hostMoves = .issue w :: ms) (hf : s.powerCuts.length < fuel)
    (hx : ∀ u v : State, u.phase = .idle → u.hostMoves = ms → exec (decode s.params.widths w) u = .next v →
      v.hostMoves = ms)
    (hn : ∀ u : State, u.phase = .idle → ∃ v, exec (decode s.params.widths w) u = .next v) :
    ∃ u v, SameButPower (s.putMoves ms) u ∧ exec (decode s.params.widths w) u = .next v ∧
      stepUntilTaken ms.length fuel s = .next v := by
  induction fuel generalizing s with
  | zero => exact absurd hf (Nat.not_lt_zero _)
  | succ fuel ih =>
    obtain ⟨torn, cs, hc, hs⟩ | ⟨cs, hs⟩ := step_cases s
    · have same : SameButPower s (powerLoss torn (s.putCuts cs)) := powerLoss_same_of_idle (s := s.putCuts cs) hi
      obtain ⟨p1, p2, p3, p4, p5, p6, p7, p8⟩ := same
      rw [stepUntilTaken_waiting hs (by simp [hm])]
      obtain ⟨u, v, hu, hv, hw⟩ := ih (s := powerLoss torn (s.putCuts cs)) rfl (p7.trans hm)
        (by simp [hc] at hf ⊢; omega) hx hn
      refine ⟨u, v, ?_, hv, hw⟩
      obtain ⟨q1, q2, q3, q4, q5, q6, q7, q8⟩ := hu
      exact ⟨q1.trans p1, q2.trans p2, q3.trans p3, q4.trans p4, q5.trans p5, q6.trans p6, q7, q8.trans p8⟩
    · rw [poweredStep_issue (s := s.putCuts cs) hi hm] at hs
      obtain ⟨v, hv⟩ := hn ((s.putCuts cs).putMoves ms) hi
      refine ⟨(s.putCuts cs).putMoves ms, v, ⟨rfl, rfl, rfl, rfl, rfl, rfl, rfl, rfl⟩, hv,
        stepUntilTaken_taken (hs.trans hv) ?_⟩
      rw [hx ((s.putCuts cs).putMoves ms) v hi rfl hv]

/-! ## The document's calls (R61) -/

@[simp] theorem afterRun_next {α : Type} (s : State) (k : State → Host.Outcome α Fault Refusal) :
    afterRun (.next s) k = k s := rfl

/-- When a run and what comes after it answer a result. -/
theorem afterRun_eq_next {α : Type} {x : Step} {k : State → Host.Outcome α Fault Refusal} {r : α} :
    afterRun x k = .next r ↔ ∃ u, x = .next u ∧ k u = .next r := by
  cases x with
  | next u => simp
  | fault f => exact nomatch f
  | refused q => simp [afterRun]

theorem stepUntilIdle_idle {fuel : Nat} (h : s.phase = .idle) : stepUntilIdle fuel s = .next s := by
  cases fuel <;> simp [stepUntilIdle, h]

theorem stepUntilIdle_busy {fuel : Nat} (h : s.phase ≠ .idle) (hs : step s = .next t) :
    stepUntilIdle (fuel + 1) s = stepUntilIdle fuel t := by
  simp [stepUntilIdle, h, hs]

theorem finishCommand_idle (h : s.phase = .idle) : finishCommand s = .next s := stepUntilIdle_idle h

/-- A run of `k` steps that keeps the core busy until it ends idle is what waiting for the end of the command gives. -/
theorem stepUntilIdle_of_runSteps {k fuel : Nat} (hk : k ≤ fuel) (h : runSteps k s = .next t) (ht : t.phase = .idle)
    (hb : ∀ j < k, ∀ u, runSteps j s = .next u → u.phase ≠ .idle) : stepUntilIdle fuel s = .next t := by
  induction k generalizing s fuel with
  | zero =>
    cases h
    exact stepUntilIdle_idle ht
  | succ k ih =>
    obtain ⟨fuel, rfl⟩ := Nat.exists_eq_add_of_le' (Nat.lt_of_lt_of_le (Nat.succ_pos k) hk)
    obtain ⟨u, hu, hr⟩ := runSteps_prefix (j := 1) (Nat.add_comm k 1 ▸ h)
    have hu : step s = .next u := by
      cases hs : step s with
      | next v => simpa [runSteps, hs] using hu
      | fault f => exact nomatch f
      | refused q => simp [runSteps, hs] at hu
    rw [stepUntilIdle_busy (hb 0 (Nat.succ_pos k) s rfl) hu]
    exact ih (Nat.le_of_succ_le_succ hk) hr fun j hj v hv =>
      hb (j + 1) (Nat.succ_lt_succ hj) v ((runSteps_succ hu).trans hv)

theorem ifOperandsFit_fits {i : Instr} {k : Host.Outcome (State × Option ResponseWord) Fault Refusal}
    (h : i.fitsRow s.params.widths = true) : ifOperandsFit i s k = k := if_pos h

/-- A call that answers a response is one whose operands fit. -/
theorem ifOperandsFit_some {i : Instr} {k : Host.Outcome (State × Option ResponseWord) Fault Refusal} {r : ResponseWord}
    (h : ifOperandsFit i s k = .next (t, some r)) : i.fitsRow s.params.widths = true ∧ k = .next (t, some r) := by
  unfold ifOperandsFit at h
  split at h
  · exact ⟨‹_›, h⟩
  · simp at h

/-- On an idle core each of the document's calls, with operands that fit, is its one command. -/
theorem documentWrite_idle (h : s.phase = .idle) (p : List Byte) {n a : Nat}
    (hf : Instr.fitsRow s.params.widths (.wrrec a n) = true) :
    documentWrite p n a s = callCommand (.wrrec a n) (s.putSrc p) := by
  simp [documentWrite, ifOperandsFit_fits hf, finishCommand_idle h]

theorem documentRead_idle (h : s.phase = .idle) (dest : List Byte) {n a : Nat}
    (hf : Instr.fitsRow s.params.widths (.rdrec a n) = true) :
    documentRead dest n a s = callCommand (.rdrec a n) (s.putDst dest) := by
  simp [documentRead, ifOperandsFit_fits hf, finishCommand_idle h]

/-- Legal operands fit their fields (R56). -/
theorem fitsRow_of_legalOperands {W : Widths} {a n : Nat} (h : legalOperands W a n = true) :
    Instr.fitsRow W (.wrrec a n) = true ∧ Instr.fitsRow W (.rdrec a n) = true := by
  simp [Instr.fitsRow, legal_operands_fit h]

theorem documentUpdate_idle (h : s.phase = .idle) (acc data : Byte) :
    documentUpdate acc data s = callCommand (.crcupd acc data) s := by
  simp [documentUpdate, finishCommand_idle h]

/-- A flipped bit changes its own cell only. -/
theorem flipBit_read_same (h : Memory.wf s.store = true) (x j : Nat) :
    Memory.read (s.flipBit x j).store x = Memory.read s.store x ^^^ (1#8 <<< j) := read_write_same h x _

theorem flipBit_read_other {x c : Nat} (h : c ≠ x) (j : Nat) :
    Memory.read (s.flipBit x j).store c = Memory.read s.store c := read_write_other h _

end Sys2Proof.Machine
end

