-- ==== Sys2Proof/Tests/Slice0.lean ====
section
/-! SUPPORT. Tests. Expected values are the spec's own: 95_test_vectors.md V1 to V10, P1 to P5 (each named), and witnesses that
the hypotheses of the statements can be met. -/

namespace Sys2Proof.Tests

open Sys2Proof.Machine

/-! ## Well-formedness: each check refuses an ill-formed term -/

theorem test_wf_refuses_reserved_word_of_crcupd : Instr.wellFormed .defaultInstance (.reserved 0x40000001) = false := by decide

theorem test_wf_refuses_reserved_word_of_wrrec : Instr.wellFormed .defaultInstance (.reserved 0x8003000A) = false := by decide

theorem test_wf_refuses_size_zero : Instr.wellFormed .defaultInstance (.wrrec 10 0) = false := by decide

theorem test_wf_refuses_range_past_port : Instr.wellFormed .defaultInstance (.rdrec 0xFFFE 1) = false := by decide

theorem test_wf_accepts_last_range : Instr.wellFormed .defaultInstance (.rdrec 0xFFFD 1) = true := by decide

theorem test_wf_accepts_nonzero_zero_field : Instr.wellFormed .defaultInstance (.reserved 0x40010001) = true := by decide

/-! ## Decoding: words written out from the encodings (V5, V6) -/

theorem test_decode_crcupd : decode .defaultInstance 0b01_00000000000000_01011010_11000011 = .crcupd 0x5A 0xC3 := by decide

theorem test_decode_wrrec : decode .defaultInstance 0b10_00000000000011_0000000000001010 = .wrrec 10 3 := by decide

theorem test_decode_rdrec : decode .defaultInstance 0b11_11111111111111_1011111111111111 = .rdrec 49151 16383 := by decide

theorem test_decode_reserved_op : decode .defaultInstance 0b00_11111111111111_1111111111111111 = .reserved 0x3FFFFFFF := by decide

theorem test_decode_reserved_zero_field : decode .defaultInstance 0x60000000 = .reserved 0x60000000 := by decide

theorem test_encode_wrrec : encode .defaultInstance (.wrrec 0xFFFD 1) = 0x8001FFFD := by decide

/-- The legal column of V6. -/
theorem test_legal_words :
    [0x8003000A, 0xC003000A, 0x40000001, 0x00000000, 0x3FFFFFFF, 0x40010001, 0x60000000, 0x8000000A, 0xC000000A,
      0x8001FFFD, 0x8001FFFE, 0x8002FFFC, 0x8002FFFD, 0xBFFF0000, 0xFFFFBFFF, 0xFFFFC000].map (legal .defaultInstance) =
    [true, true, true, false, false, false, false, false, false, true, false, true, false, true, true, false] := by
  decide

theorem test_decodeTableWord_short : decodeTableWord 8 0x00 = some (.reserved 0) := by decide

theorem test_decodeTableWord_too_wide : decodeTableWord 33 0x40000001 = none := by decide

/-! ## Another instance: `AW = 9`, `SW = 8`, so `CW = 19` (R6; the words written out from R51 and R52) -/

/-- Widths of another instance than the default one. -/
def narrow : Widths := ⟨9, 8⟩

theorem test_narrow_decode_wrrec : decode narrow 0b10_00000011_000001010 = .wrrec 10 3 := by decide

/-- The `zero` field has one bit here. -/
theorem test_narrow_decode_crcupd :
    decode narrow 0b01_0_01011010_11000011 = .crcupd 0x5A 0xC3 ∧
      decode narrow 0b01_1_01011010_11000011 = .reserved 0b01_1_01011010_11000011 := by decide

/-- The last range of the port, `addr + size + 1 = 2^9 - 1`, and the first past it (R56, R88). -/
theorem test_narrow_legal :
    legal narrow 0b11_00000001_111111101 = true ∧ legal narrow 0b11_00000001_111111110 = false := by decide

/-! ## The CRC8 engine -/

/-- V1: the working values after each iteration of `crc8_update(0x00, 0x01)`. -/
theorem test_crc_iterations :
    (List.range 8).map (fun k => crcIterate (k + 1) (0x00, 0x01)) =
      [(0x8C, 0), (0x46, 0), (0x23, 0), (0x9D, 0), (0xC2, 0), (0x61, 0), (0xBC, 0), (0x5E, 0)] := by decide

/-- V3, rows 0x to 7x of the table. -/
theorem test_crc_table_low :
    (List.range 128).map (fun x => (crc8Update (BitVec.ofNat 8 x) 0).toNat) =
      [0x00, 0x5E, 0xBC, 0xE2, 0x61, 0x3F, 0xDD, 0x83, 0xC2, 0x9C, 0x7E, 0x20, 0xA3, 0xFD, 0x1F, 0x41] ++
      [0x9D, 0xC3, 0x21, 0x7F, 0xFC, 0xA2, 0x40, 0x1E, 0x5F, 0x01, 0xE3, 0xBD, 0x3E, 0x60, 0x82, 0xDC] ++
      [0x23, 0x7D, 0x9F, 0xC1, 0x42, 0x1C, 0xFE, 0xA0, 0xE1, 0xBF, 0x5D, 0x03, 0x80, 0xDE, 0x3C, 0x62] ++
      [0xBE, 0xE0, 0x02, 0x5C, 0xDF, 0x81, 0x63, 0x3D, 0x7C, 0x22, 0xC0, 0x9E, 0x1D, 0x43, 0xA1, 0xFF] ++
      [0x46, 0x18, 0xFA, 0xA4, 0x27, 0x79, 0x9B, 0xC5, 0x84, 0xDA, 0x38, 0x66, 0xE5, 0xBB, 0x59, 0x07] ++
      [0xDB, 0x85, 0x67, 0x39, 0xBA, 0xE4, 0x06, 0x58, 0x19, 0x47, 0xA5, 0xFB, 0x78, 0x26, 0xC4, 0x9A] ++
      [0x65, 0x3B, 0xD9, 0x87, 0x04, 0x5A, 0xB8, 0xE6, 0xA7, 0xF9, 0x1B, 0x45, 0xC6, 0x98, 0x7A, 0x24] ++
      [0xF8, 0xA6, 0x44, 0x1A, 0x99, 0xC7, 0x25, 0x7B, 0x3A, 0x64, 0x86, 0xD8, 0x5B, 0x05, 0xE7, 0xB9] := by
  decide +kernel

/-- V3, rows 8x to Fx of the table. -/
theorem test_crc_table_high :
    (List.range 128).map (fun x => (crc8Update (BitVec.ofNat 8 (x + 128)) 0).toNat) =
      [0x8C, 0xD2, 0x30, 0x6E, 0xED, 0xB3, 0x51, 0x0F, 0x4E, 0x10, 0xF2, 0xAC, 0x2F, 0x71, 0x93, 0xCD] ++
      [0x11, 0x4F, 0xAD, 0xF3, 0x70, 0x2E, 0xCC, 0x92, 0xD3, 0x8D, 0x6F, 0x31, 0xB2, 0xEC, 0x0E, 0x50] ++
      [0xAF, 0xF1, 0x13, 0x4D, 0xCE, 0x90, 0x72, 0x2C, 0x6D, 0x33, 0xD1, 0x8F, 0x0C, 0x52, 0xB0, 0xEE] ++
      [0x32, 0x6C, 0x8E, 0xD0, 0x53, 0x0D, 0xEF, 0xB1, 0xF0, 0xAE, 0x4C, 0x12, 0x91, 0xCF, 0x2D, 0x73] ++
      [0xCA, 0x94, 0x76, 0x28, 0xAB, 0xF5, 0x17, 0x49, 0x08, 0x56, 0xB4, 0xEA, 0x69, 0x37, 0xD5, 0x8B] ++
      [0x57, 0x09, 0xEB, 0xB5, 0x36, 0x68, 0x8A, 0xD4, 0x95, 0xCB, 0x29, 0x77, 0xF4, 0xAA, 0x48, 0x16] ++
      [0xE9, 0xB7, 0x55, 0x0B, 0x88, 0xD6, 0x34, 0x6A, 0x2B, 0x75, 0x97, 0xC9, 0x4A, 0x14, 0xF6, 0xA8] ++
      [0x74, 0x2A, 0xC8, 0x96, 0x15, 0x4B, 0xA9, 0xF7, 0xB6, 0xE8, 0x0A, 0x54, 0xD7, 0x89, 0x6B, 0x35] := by
  decide +kernel

/-- V4, among them the check value of "123456789" (93 item G1). -/
theorem test_crc_folds :
    [[], [0xFF], [0x01, 0x00], [0xAA, 0xBB], [0x01, 0x02, 0x03], [0xDE, 0xAD, 0xBE, 0xEF],
      [0x31, 0x32, 0x33, 0x34, 0x35, 0x36, 0x37, 0x38, 0x39]].map crc8 =
    [0x00, 0x35, 0xC4, 0x1B, 0xD8, 0x84, 0xA1] := by decide +kernel

/-! ## One step of each kind, on the state of V7 to V9 -/

/-- The state a step answers, or the state given. -/
def after (x : Step) (s : State) : State :=
  match x with
  | .next t => t
  | .fault _ => s
  | .refused _ => s

/-- V7's store with an older valid record at 10, its source buffer, V8's destination buffer; core idle. -/
def recState : State :=
  { State.reset with
    store := [(10, 0x90), (11, 0x07), (12, 0x08), (13, 0x09), (14, 0x6F)], src := [1, 2, 3], dst := [0xEE, 0xEE, 0xEE] }

/-- `recState` in the midst of `WRREC 10, 3` or `RDREC 10, 3`. -/
def midway (p : Phase) (acc : Byte) (idx : Nat) (tmp : Byte) : State :=
  { recState with phase := p, acc := acc, addr := 10, size := 3, idx := idx, tmp := tmp }

/-- V5. -/
theorem test_crcupd_response : (after (exec (.crcupd 0x12 0x34) recState) recState).responses = [0x00FE] := by decide

theorem test_wrrec_accepted :
    (after (exec (.wrrec 10 3) (midway .idle 0x77 2 0x55)) recState) = midway .wRdold 0 0 0x55 := by decide

/-- V6: the largest legal address is accepted, the next is not. -/
theorem test_wrrec_range :
    (after (exec (.wrrec 0xFFFD 1) recState) recState).responses = [] ∧
      (after (exec (.wrrec 0xFFFE 1) recState) recState).responses = [0x0200] := by decide

theorem test_rdrec_accepted :
    (after (exec (.rdrec 10 3) (midway .idle 0x77 2 0x55)) recState) = midway .rFold 0 0 0x55 := by decide

/-- V6: `RDREC 10, 0`. -/
theorem test_rdrec_size_zero : (after (exec (.rdrec 10 0) recState) recState).responses = [0x0200] := by decide

theorem test_reserved_response : (after (exec (.reserved 0x3FFFFFFF) recState) recState).responses = [0x0200] := by
  decide

/-- V7, micro-step 1. -/
theorem test_wRdold : (after (step (midway .wRdold 0 0 0)) recState).tmp = 0x90 := by decide

/-- V7, micro-step 2. -/
theorem test_wPlace :
    (after (step (midway .wPlace 0 0 0x90)) recState).store =
      [(10, 0x90), (11, 0x07), (12, 0x08), (13, 0x09), (14, 0x90)] := by decide

/-- V7, micro-step 4. -/
theorem test_wPayload :
    let t := after (step (midway .wPayload 0x5E 1 0x90)) recState
    (t.store, t.acc, t.idx, t.phase) =
      ([(10, 0x90), (11, 0x07), (12, 0x02), (13, 0x09), (14, 0x6F)], 0x78, 2, .wPayload) := by decide

/-- V7, micro-step 5: the last byte. -/
theorem test_wPayload_last : (after (step (midway .wPayload 0x78 2 0x90)) recState).phase = .wLead := by decide

/-- V7, micro-step 6. -/
theorem test_wLead : Memory.read (after (step (midway .wLead 0xD8 3 0x90)) recState).store 10 = 0xD8 := by decide

/-- V7, micro-step 7. -/
theorem test_wTrail :
    let t := after (step (midway .wTrail 0xD8 3 0x90)) recState
    (Memory.read t.store 14, t.responses, t.phase) = (0x27, [0x0000], .idle) := by decide

/-- R91, with V3 and V10's old payload: folding 0x07 into 0x00 gives `T[0x07] = 0x83`. -/
theorem test_rFold : (after (step (midway .rFold 0 0 0)) recState).acc = 0x83 := by decide

/-- V10, row 0: the old record's leading byte 0x90 is `CRC8([7, 8, 9])`; V9: another byte fails. -/
theorem test_rLead :
    (after (step (midway .rLead 0x90 3 0)) recState).phase = .rTrail ∧
      (after (step (midway .rLead 0xD8 3 0)) recState).responses = [0x0100] := by decide

/-- V4: the trailing byte of `[7, 8, 9]` is 0x6F. -/
theorem test_rTrail :
    (after (step (midway .rTrail 0x90 3 0)) recState).phase = .rCopy ∧
      (after (step (midway .rTrail 0x91 3 0)) recState).responses = [0x0100] := by decide

/-- V10, row 0: `DST` at the last copied byte, and the response with it. -/
theorem test_rCopy_last :
    let t := after (step (midway .rCopy 0x90 2 0)) recState
    (t.dst, t.responses, t.phase) = ([0xEE, 0xEE, 0x09], [0x0000], .idle) := by decide

/-- R106: under `any` a power loss in W_LEAD may spoil the leading cell; under `atomic` it spoils nothing. -/
theorem test_power_loss :
    (powerLoss (some 0x42) { midway .wLead 0xD8 3 0x90 with params := ⟨.defaultInstance, 65536, .any⟩ }).store =
        [(10, 0x42), (11, 0x07), (12, 0x08), (13, 0x09), (14, 0x6F)] ∧
      (powerLoss (some 0x42) (midway .wLead 0xD8 3 0x90)).store = recState.store := by decide

/-- The word placed for the next step is what the next step runs. -/
theorem test_withFetchWord :
    step (State.reset.withFetchWord 32 0x8003000A) = .next (State.reset.accept 10 3 .wRdold) := by rfl

/-- On the narrow instance the range check is against `2^9 - 1`. -/
theorem test_narrow_wrrec_range :
    let s := { recState with params := ⟨narrow, 512, .atomic⟩ }
    (after (exec (.wrrec 0x1FD 1) s) recState).phase = .wRdold ∧
      (after (exec (.wrrec 0x1FE 1) s) recState).responses = [0x0200] := by decide

/-- R62 on V4's example, with a power loss before the second command is taken (log entry 23). -/
theorem test_crcFold :
    let s := { recState with powerCuts := [⟨1, none⟩] }
    (match crcFold [1, 2, 3] 0 s with
      | .next p => (p.1.responses, p.2)
      | .fault _ => ([], 0)
      | .refused _ => ([], 0)) = ([0x005E, 0x0078, 0x00D8], 0xD8) := by rfl

/-! ## The store and the textual syntax -/

/-- Writing what an unlisted cell reads as removes the pair. -/
theorem test_write_unlisted : Memory.write [(10, 0x90), (12, 0x08)] 10 0xFF = [(12, 0x08)] := by decide

theorem test_assemble_illegal_operands : assembleLine .defaultInstance "RDREC 10, 0  ; P5" = some (.move (.issue 0xC000000A)) := by decide

theorem test_assemble_refuses_wide_operand : assembleLine .defaultInstance "CRCUPD 0x100, 1" = none := by decide

theorem test_assemble_crcfold : assembleLine .defaultInstance "CRCFOLD 0x01, 0x02, 3" = some (.fold [1, 2, 3]) := by decide

/-! ## Witnesses: for each statement with hypotheses, a state and operands that meet all of them together -/

/-- Right after `W_PAYLOAD`'s first byte of V7, with the placeholder in place. -/
def payloadState : State :=
  { midway .wPayload 0x5E 1 0x90 with store := [(10, 0x90), (11, 0x01), (12, 0x08), (13, 0x09), (14, 0x90)] }

/-- Before `W_PAYLOAD`'s last byte of V7. -/
def lastByteState : State :=
  { payloadState with store := [(10, 0x90), (11, 0x01), (12, 0x02), (13, 0x09), (14, 0x90)], acc := 0x78, idx := 2 }

/-- A store whose trailing byte is wrong (V9, second row), at the trailing check. -/
def badTrailState : State :=
  { midway .rTrail 0xD8 3 0 with store := [(10, 0xD8), (11, 0x01), (12, 0x02), (13, 0x03), (14, 0xA7)] }

/-- `recState` with a plan: write, set the destination, read; and power lost after `j` steps. -/
def crashState (j : Nat) : State :=
  { recState with
    powerCuts := [⟨j, some 0x42⟩],
    hostMoves := [.issue (encode .defaultInstance (.wrrec 10 3)), .setDest [0, 0, 0], .issue (encode .defaultInstance (.rdrec 10 3))] }

theorem witness_DecodeEncodeAgree :
    ∀ i ∈ [Instr.crcupd 0xFF 0xFF, .wrrec 0 0, .rdrec 0xFFFF 0x3FFF, .reserved 0x3FFFFFFF, .reserved 0x40010000],
      i.fitsRow .defaultInstance = true := by decide

/-- One word for each clause, at the end of its range. -/
theorem witness_OpcodeMapByMaskAndMatch :
    0x3FFFFFFF &&& 0xC0000000 = (0 : BitVec 32) ∧ 0x4000FFFF &&& 0xFFFF0000 = (0x40000000 : BitVec 32) ∧
      (0x40010000 &&& 0xC0000000 = (0x40000000 : BitVec 32) ∧
        0x40010000 &&& 0xFFFF0000 ≠ (0x40000000 : BitVec 32)) ∧
      0xBFFFFFFF &&& 0xC0000000 = (0x80000000 : BitVec 32) ∧
      0xFFFFFFFF &&& 0xC0000000 = (0xC0000000 : BitVec 32) := by decide

/-- One word for each illegal class, at a boundary, before an idle core. -/
theorem witness_IllegalWordsAreFourClasses :
    recState.phase = .idle ∧
      ∀ cmd ∈ [0x3FFFFFFF, 0x40010000, 0x8000FFFF, 0xC001FFFE],
        cmd < 2 ^ Widths.defaultInstance.cw ∧ legal recState.params.widths cmd = false := by
  decide

theorem witness_IllegalCommandChangesNothing : legal recState.params.widths 0x00000000 = false ∧ recState.phase = .idle := by decide

/-- The narrowest legal widths, whose CRCUPD has no `zero` field, and the ends of the fields. -/
theorem witness_GeneralEncodingAndDefaultInstance :
    (⟨8, 8⟩ : Widths).Legal ∧ 2 ^ 18 - 1 < 2 ^ (⟨8, 8⟩ : Widths).cw ∧ 255 < 2 ^ (⟨8, 8⟩ : Widths).sw ∧
      255 < 2 ^ (⟨8, 8⟩ : Widths).aw := by decide

/-- A command and a word of another instance than the default one. -/
theorem witness_DecodeEncodeAgree_EveryWordIsTheWordOfItsCommand :
    narrow.Legal ∧ Instr.fitsRow narrow (.wrrec 511 255) = true ∧ Instr.fitsRow narrow (.reserved 0x30000) = true ∧
      2 ^ 19 - 1 < 2 ^ narrow.cw := by decide

theorem witness_StepRunsThePresentedCommand :
    (recState.issue 0x8003000A).phase = .idle ∧ (recState.issue 0x8003000A).powerCuts = [] ∧
      (recState.issue 0x8003000A).hostMoves = [.issue 0x8003000A] := by decide

/-- One state for each clause. -/
theorem witness_StepOtherMoves :
    (payloadState.phase ≠ .idle ∧ payloadState.powerCuts = []) ∧
      { recState with powerCuts := [⟨1, none⟩] }.powerCuts = [⟨0 + 1, none⟩] ∧
      (recState.phase = .idle ∧ recState.powerCuts = [] ∧ recState.hostMoves = []) ∧
      ({ recState with hostMoves := [.setSource [1]] }.hostMoves = [.setSource [1]]) ∧
      ({ recState with hostMoves := [.setDest []] }.hostMoves = [.setDest []]) := by decide

/-- A busy core, a busy core's step, and an idle core with a word presented. -/
theorem witness_BusyCoreAcceptsNothing :
    (payloadState.phase ≠ .idle ∧ step payloadState = .next (after (step payloadState) recState)) ∧
      ((recState.issue 0x8003000A).phase = .idle ∧ (recState.issue 0x8003000A).powerCuts = [] ∧
        (recState.issue 0x8003000A).hostMoves = [.issue 0x8003000A]) :=
  ⟨⟨by decide, rfl⟩, rfl, rfl, rfl⟩

/-- An idle core, a power loss and a micro-step, each with a next state. -/
theorem witness_OneStoreAccessPerMicroStep :
    (recState.phase = .idle ∧ step recState = .next recState) ∧
      ((crashState 0).powerCuts = [⟨0, some 0x42⟩] ∧
        step (crashState 0) = .next (powerLoss (some 0x42) ((crashState 0).putCuts []))) ∧
      (payloadState.phase ≠ .idle ∧ payloadState.powerCuts = [] ∧
        step payloadState = .next (after (step payloadState) recState)) :=
  ⟨⟨rfl, rfl⟩, ⟨rfl, rfl⟩, by decide, rfl, rfl⟩

/-- A power loss, and the step of a command that responds. -/
theorem witness_ResponseWordsThatOccur :
    step (crashState 0) = .next (powerLoss (some 0x42) ((crashState 0).putCuts [])) ∧
      step (recState.issue 0) = .next (recState.respond .illegal 0) := ⟨rfl, rfl⟩

theorem witness_CrcDetectsASingleBitFlip : 2 < ([1, 2, 3] : List Byte).length ∧ (7 : Nat) < 8 := by decide

/-- An idle core, a busy core, and a word with the zero field at its two ends. -/
theorem witness_CrcupdResult :
    recState.phase = .idle ∧ payloadState.phase ≠ .idle ∧ (narrow.Legal ∧ Widths.defaultInstance.Legal) ∧
      ∀ cmd ∈ [0x40010000, 0x7FFFFFFF],
        opField recState.params.widths cmd = 1 ∧ zeroField recState.params.widths cmd ≠ 0 := by
  decide

theorem witness_CrcFoldMacroComputesTheChecksum : recState.params.widths.Legal ∧ recState.Quiet := by decide

/-- With a power loss to come. -/
theorem witness_CrcFoldOutlastsPowerLosses :
    (crashState 1).params.widths.Legal ∧ (crashState 1).phase = .idle ∧ (crashState 1).powerCuts = [⟨1, some 0x42⟩] := by
  decide

/-- Size 0, the first size no field holds, and the first range past the port. -/
theorem witness_ReservedAndIllegalOperandsRespondIllegal :
    recState.phase = .idle ∧ 2 ^ recState.params.widths.sw ≤ 16384 ∧
      0xFFFE + 1 + 1 > 2 ^ recState.params.widths.aw - 1 := by decide

/-- Both ends of the legal operands. -/
theorem witness_WrrecAcceptance_RdrecAcceptance :
    recState.phase = .idle ∧
      ∀ p ∈ [(0xFFFD, 1), (0, 16383), (49151, 16383)],
        1 ≤ p.2 ∧ p.2 < 2 ^ recState.params.widths.sw ∧ p.1 + p.2 + 1 ≤ 2 ^ recState.params.widths.aw - 1 := by
  decide

theorem witness_MicroStepReadsOldLeadingByte :
    (midway .wRdold 0 0 0).phase = .wRdold ∧ (midway .wRdold 0 0 0).powerCuts = [] ∧
      (midway .wRdold 0 0 0).addr < (midway .wRdold 0 0 0).params.storeSize := by decide

theorem witness_MicroStepWritesPlaceholder :
    (midway .wPlace 0 0 0x90).Inv ∧ (midway .wPlace 0 0 0x90).phase = .wPlace ∧
      (midway .wPlace 0 0 0x90).powerCuts = [] ∧ (midway .wPlace 0 0 0x90).RecordFits 10 3 := by
  simp only [State.Inv, State.PhaseInv, midway, recState]
  decide +kernel

/-- A byte that is not the last. -/
theorem witness_MicroStepWritesPayloadByte :
    payloadState.Inv ∧ payloadState.phase = .wPayload ∧ payloadState.powerCuts = [] ∧ payloadState.RecordFits 10 3 ∧
      payloadState.src[1]? = some 2 ∧ payloadState.idx = 1 ∧ payloadState.idx + 1 ≠ payloadState.size := by
  simp only [State.Inv, State.PhaseInv, payloadState, midway, recState]
  decide +kernel

/-- The last byte. -/
theorem witness_MicroStepWritesPayloadByte_last :
    lastByteState.Inv ∧ lastByteState.phase = .wPayload ∧ lastByteState.powerCuts = [] ∧
      lastByteState.RecordFits 10 3 ∧ lastByteState.src[2]? = some 3 ∧ lastByteState.idx = 2 ∧
      lastByteState.idx + 1 = lastByteState.size := by
  simp only [State.Inv, State.PhaseInv, lastByteState, payloadState, midway, recState]
  decide +kernel

theorem witness_MicroStepWritesLeadingGuard :
    (midway .wLead 0xD8 3 0x90).phase = .wLead ∧ (midway .wLead 0xD8 3 0x90).powerCuts = [] ∧
      (midway .wLead 0xD8 3 0x90).addr < (midway .wLead 0xD8 3 0x90).params.storeSize := by decide

theorem witness_MicroStepWritesTrailingGuard :
    (midway .wTrail 0xD8 3 0x90).phase = .wTrail ∧ (midway .wTrail 0xD8 3 0x90).powerCuts = [] ∧
      (midway .wTrail 0xD8 3 0x90).RecordFits 10 3 := by decide

/-- The hypotheses of WrrecNetEffect, and of WrrecAccessList with `k` at both ends and at the ends of its rows. -/
theorem witness_WrrecNetEffect_WrrecAccessList :
    recState.Quiet ∧ Memory.wf recState.store = true ∧ legalOperands .defaultInstance 10 3 = true ∧ recState.RecordFits 10 3 ∧
      3 ≤ recState.src.length ∧ ∀ k ∈ [1, 2, 3, 4, 5, 6, 7, 8], 1 ≤ k ∧ k ≤ 3 + 5 := by
  decide

/-- The first byte and the last. -/
theorem witness_MicroStepFoldsPayloadByte :
    ((midway .rFold 0 0 0).Inv ∧ (midway .rFold 0 0 0).phase = .rFold ∧ (midway .rFold 0 0 0).powerCuts = [] ∧
        (midway .rFold 0 0 0).RecordFits 10 3) ∧
      ((midway .rFold (crc8 [7, 8]) 2 0).Inv ∧ (midway .rFold (crc8 [7, 8]) 2 0).RecordFits 10 3 ∧
        (midway .rFold (crc8 [7, 8]) 2 0).idx + 1 = 3) := by
  simp only [State.Inv, State.PhaseInv, midway, recState]
  decide +kernel

/-- With a mismatch and with a match. -/
theorem witness_MicroStepChecksLeadingGuard :
    ∀ s ∈ [midway .rLead 0xD8 3 0, midway .rLead 0x90 3 0],
      s.phase = .rLead ∧ s.powerCuts = [] ∧ s.addr < s.params.storeSize := by decide

theorem witness_MicroStepChecksTrailingGuard_match :
    (midway .rTrail 0x90 3 0).Inv ∧ (midway .rTrail 0x90 3 0).phase = .rTrail ∧
      (midway .rTrail 0x90 3 0).powerCuts = [] ∧ (midway .rTrail 0x90 3 0).RecordFits 10 3 ∧
      Memory.read (midway .rTrail 0x90 3 0).store 14 = ~~~(midway .rTrail 0x90 3 0).acc := by
  simp only [State.Inv, State.PhaseInv, midway, recState]
  decide +kernel

theorem witness_MicroStepChecksTrailingGuard_mismatch :
    badTrailState.Inv ∧ badTrailState.phase = .rTrail ∧ badTrailState.powerCuts = [] ∧
      badTrailState.RecordFits 10 3 ∧ Memory.read badTrailState.store 14 ≠ ~~~badTrailState.acc := by
  simp only [State.Inv, State.PhaseInv, badTrailState, midway, recState]
  decide +kernel

/-- The first byte and the last. -/
theorem witness_MicroStepCopiesPayloadByte :
    ((midway .rCopy 0x90 0 0).Inv ∧ (midway .rCopy 0x90 0 0).phase = .rCopy ∧ (midway .rCopy 0x90 0 0).powerCuts = [] ∧
        (midway .rCopy 0x90 0 0).RecordFits 10 3 ∧ 3 ≤ (midway .rCopy 0x90 0 0).dst.length) ∧
      ({ midway .rCopy 0x90 2 0 with dst := [0x07, 0x08, 0xEE] }.Inv ∧
        { midway .rCopy 0x90 2 0 with dst := [0x07, 0x08, 0xEE] }.idx + 1 = 3) := by
  simp only [State.Inv, State.PhaseInv, midway, recState]
  decide +kernel

/-- RdrecNetEffect and RdrecAccessList on a valid record. -/
theorem witness_RdrecNetEffect_RdrecAccessList :
    recState.Quiet ∧ legalOperands .defaultInstance 10 3 = true ∧ recState.RecordFits 10 3 ∧
      3 ≤ recState.dst.length ∧ ValidRecord recState.store 10 3 := by decide +kernel

/-- Their clause of a leading mismatch (V9, first row). -/
theorem witness_RdrecNetEffect_RdrecAccessList_leading :
    let s := { recState with store := [(10, 0xD9), (11, 0x01), (12, 0x02), (13, 0x03), (14, 0x27)] }
    s.Quiet ∧ legalOperands .defaultInstance 10 3 = true ∧ s.RecordFits 10 3 ∧ 3 ≤ s.dst.length ∧
      ¬ValidRecord s.store 10 3 ∧ Memory.read s.store 10 ≠ crc8 (payloadOf s.store 10 3) := by decide +kernel

/-- Their clause of a trailing mismatch (V9, second row). -/
theorem witness_RdrecNetEffect_RdrecAccessList_trailing :
    let s := { recState with store := badTrailState.store }
    s.Quiet ∧ legalOperands .defaultInstance 10 3 = true ∧ s.RecordFits 10 3 ∧ 3 ≤ s.dst.length ∧
      ¬ValidRecord s.store 10 3 ∧ Memory.read s.store 10 = crc8 (payloadOf s.store 10 3) := by decide +kernel

/-- A step that changes DST, one that enters R_COPY, and one that responds VERIFY_FAIL. -/
theorem witness_DestinationUntouchedUnlessVerified :
    ((midway .rCopy 0x90 0 0).Inv ∧
        step (midway .rCopy 0x90 0 0) = .next (after (step (midway .rCopy 0x90 0 0)) recState)) ∧
      ((midway .rTrail 0x90 3 0).Inv ∧
        step (midway .rTrail 0x90 3 0) = .next (after (step (midway .rTrail 0x90 3 0)) recState)) ∧
      (badTrailState.Inv ∧ step badTrailState = .next (after (step badTrailState) recState)) := by
  refine ⟨⟨?_, rfl⟩, ⟨?_, rfl⟩, ?_, rfl⟩ <;>
    simp only [State.Inv, State.PhaseInv, badTrailState, midway, recState] <;> decide +kernel

/-- Both kinds. -/
theorem witness_MismatchKindsSurfaceIdentically :
    ((midway .rLead 0xD8 3 0).mismatchFound = some .leadingChecksumMismatch ∧
        (midway .rLead 0xD8 3 0).powerCuts = [] ∧ (midway .rLead 0xD8 3 0).nextStoreAddress = some 10 ∧
        10 < (midway .rLead 0xD8 3 0).params.storeSize) ∧
      (badTrailState.mismatchFound = some .trailingChecksumMismatch ∧ badTrailState.powerCuts = [] ∧
        badTrailState.nextStoreAddress = some 14 ∧ 14 < badTrailState.params.storeSize) := by decide

/-- Equal guards; a valid record; a uniform region. -/
theorem witness_EqualGuardsNeverValidate :
    Memory.read payloadState.store 10 = Memory.read payloadState.store (10 + 3 + 1) ∧
      ValidRecord recState.store 10 3 ∧
      (State.reset.Quiet ∧ legalOperands .defaultInstance 10 3 = true ∧ State.reset.RecordFits 10 3 ∧
        ∀ x, InRecord 10 3 x → Memory.read State.reset.store x = 0xFF) :=
  ⟨by decide, by decide +kernel, by decide, by decide, by decide, fun _ _ => rfl⟩

theorem witness_WriteThenReadRoundTrip :
    let s := { recState with hostMoves := [.issue (encode .defaultInstance (.wrrec 10 3)), .issue (encode .defaultInstance (.rdrec 10 3))] }
    s.Quiet ∧ Memory.wf s.store = true ∧ legalOperands .defaultInstance 10 3 = true ∧ s.RecordFits 10 3 ∧
      3 ≤ s.src.length ∧ 3 ≤ s.dst.length ∧
      s.hostMoves = .issue (encode .defaultInstance (.wrrec 10 3)) :: .issue (encode .defaultInstance (.rdrec 10 3)) :: [] := by decide

/-- Both guard cells and both ends of the payload, with the first bit and the last. -/
theorem witness_SingleBitFlipIsDetected :
    recState.Quiet ∧ Memory.wf recState.store = true ∧ legalOperands .defaultInstance 10 3 = true ∧ recState.RecordFits 10 3 ∧
      ValidRecord recState.store 10 3 ∧ (∀ x ∈ [10, 11, 13, 14], InRecord 10 3 x) ∧ ∀ j ∈ [0, 7], j < 8 := by
  decide +kernel

/-- The nearest record after a valid one. -/
theorem witness_DisjointRecordsAreIndependent :
    recState.Quiet ∧ Memory.wf recState.store = true ∧ legalOperands .defaultInstance 15 1 = true ∧ recState.RecordFits 15 1 ∧
      1 ≤ recState.src.length ∧ RecordsDisjoint 15 1 10 3 ∧ ValidRecord recState.store 10 3 := by
  decide +kernel

/-- Under `any` with a torn byte in a write phase; under `atomic`; in a phase that writes nothing. -/
theorem witness_PowerLossEffect :
    (let s := { payloadState with powerCuts := [⟨0, some 7⟩], params := ⟨.defaultInstance, 65536, .any⟩ };
      s.powerCuts = [⟨0, some 7⟩] ∧ s.params.tornByte = .any ∧ s.cellBeingWritten = some 12 ∧
        12 < s.params.storeSize ∧ Memory.wf s.store = true) ∧
      (crashState 0).powerCuts = ⟨0, some 0x42⟩ :: [] ∧ (crashState 0).params.tornByte = .atomic ∧
      (crashState 0).cellBeingWritten = none := by decide

/-- The hypotheses of both crash-window statements at the boundaries of their rows: `k = 0` (before and after the read), 1, 2,
`n + 1`, `n + 2`, `n + 3`. -/
theorem witness_CrashWindowSnapshots_TornWriteNeverYieldsAMixture :
    ∀ j ∈ [1, 2, 3, 4, 6, 7, 8],
      (crashState j).phase = .idle ∧ (crashState j).powerCuts = [⟨j, some 0x42⟩] ∧
        (crashState j).params.tornByte = .atomic ∧ Memory.wf (crashState j).store = true ∧
        legalOperands .defaultInstance 10 3 = true ∧ (crashState j).RecordFits 10 3 ∧ 3 ≤ (crashState j).src.length ∧
        3 ≤ ([0, 0, 0] : List Byte).length ∧ 1 ≤ j ∧ j ≤ 3 + 5 ∧
        (crashState j).hostMoves =
          .issue (encode .defaultInstance (.wrrec 10 3)) :: .setDest [0, 0, 0] :: .issue (encode .defaultInstance (.rdrec 10 3)) :: [] := by decide

/-- The clauses of TornWriteNeverYieldsAMixture on the old contents: row 0 with and without a valid record, row `n + 2` with
and without `L = ~c` (V10's special case). -/
theorem witness_TornWriteNeverYieldsAMixture_rows :
    ValidRecord (crashState 2).store 10 3 ∧ Memory.read (crashState 7).store 10 ≠ ~~~(crc8 [1, 2, 3]) ∧
      (let m : Memory := [(10, 0x27), (11, 0), (12, 0), (13, 0), (14, 0)];
        Memory.wf m = true ∧ ¬ValidRecord m 10 3 ∧ Memory.read m 10 = ~~~(crc8 [1, 2, 3])) := by decide +kernel

theorem witness_EveryStepKeepsTheInvariant :
    payloadState.Inv ∧ step payloadState = .next (after (step payloadState) recState) := by
  refine ⟨?_, rfl⟩
  simp only [State.Inv, State.PhaseInv, payloadState, midway, recState]
  decide +kernel

/-- A write phase and a read phase. -/
theorem witness_StoreChangesOnlyInsideTheRecord :
    (payloadState.Inv ∧ step payloadState = .next (after (step payloadState) recState) ∧ ¬InRecord 10 3 15) ∧
      (badTrailState.Inv ∧ step badTrailState = .next (after (step badTrailState) recState) ∧
        badTrailState.phase ∈ [Phase.idle, .wRdold, .rFold, .rLead, .rTrail, .rCopy]) := by
  refine ⟨⟨?_, rfl, by decide⟩, ?_, rfl, by decide⟩ <;>
    simp only [State.Inv, State.PhaseInv, badTrailState, payloadState, midway, recState] <;> decide +kernel

/-- Two idle states that differ in all five registers, and two busy ones that differ in a stale TMP. -/
theorem witness_StaleRegistersNeverShow :
    SameLive recState (midway .idle 0x77 2 0x55) ∧ SameLive payloadState { payloadState with tmp := 0 } := by
  unfold SameLive
  decide

theorem witness_EarlierOutcomesDoNotMatter : step payloadState = .next (after (step payloadState) recState) := rfl

/-- The first address past the store, in W_PAYLOAD and in another phase. -/
theorem witness_OutsideTheStoreIsRefused :
    (let s := { payloadState with params := ⟨.defaultInstance, 12, .atomic⟩ };
      s.powerCuts = [] ∧ s.nextStoreAddress = some 12 ∧ s.params.storeSize ≤ 12 ∧ s.idx < s.src.length) ∧
      (let s := { midway .wRdold 0 0 0 with params := ⟨.defaultInstance, 10, .atomic⟩ };
        s.powerCuts = [] ∧ s.nextStoreAddress = some 10 ∧ s.params.storeSize ≤ 10 ∧ s.phase ≠ .wPayload) := by decide

/-- Both buffers, at the first byte they lack. -/
theorem witness_ShortBuffersAreRefused :
    (let s := { payloadState with src := [1] };
      s.phase = .wPayload ∧ s.powerCuts = [] ∧ s.src.length ≤ s.idx) ∧
      (let s := { midway .rCopy 0x90 0 0 with dst := [] };
        s.phase = .rCopy ∧ s.powerCuts = [] ∧ s.addr + 1 + s.idx < s.params.storeSize ∧
          s.dst.length ≤ s.idx) := by decide

theorem witness_NoRefusalInsideTheContract :
    payloadState.Inv ∧ payloadState.params.storeSize = 2 ^ payloadState.params.widths.aw ∧ payloadState.BuffersServe := by
  simp only [State.Inv, State.PhaseInv, State.BuffersServe, payloadState, midway, recState]
  decide +kernel

/-- In a WRREC with no room in DST, and in an RDREC with nothing in SRC. -/
theorem witness_EveryCommandEnds :
    (let s := { payloadState with dst := [] };
      s.Inv ∧ s.phase ≠ .idle ∧ s.powerCuts = [] ∧ s.RecordFits s.addr s.size ∧ s.BuffersServeCommand) ∧
      (let s := { midway .rFold 0 0 0 with src := [] };
        s.Inv ∧ s.phase ≠ .idle ∧ s.powerCuts = [] ∧ s.RecordFits s.addr s.size ∧ s.BuffersServeCommand) := by
  simp only [State.Inv, State.PhaseInv, payloadState, midway, recState]
  decide +kernel

/-- The response of a call that answers one. -/
def answer (x : Host.Outcome (State × Option ResponseWord) Fault Refusal) : Option ResponseWord :=
  match x with
  | .next p => p.2
  | .fault _ => none
  | .refused _ => none

/-- R61's ranges: a size past its field is no call, so nothing is issued and nothing changes; size 0 fits and is answered
ILLEGAL (P5). -/
theorem test_document_call_ranges :
    documentWrite [] 16387 10 recState = .next (recState, none) ∧
      answer (documentRead [0xEE] 0 10 recState) = some 0x0200 :=
  ⟨rfl, by decide +kernel⟩

/-- Clause by clause: a record and its neighbour on the range that touches it, on legal widths; a write that succeeds, with both
ends of its record and of a byte; a read that responds VERIFY_FAIL (V9, second row); P1's own operands. -/
theorem witness_DocumentPropertiesHold :
    (recState.ReadyFor 10 ([1, 2, 3] : List Byte).length ∧ recState.ReadyFor 15 ([4] : List Byte).length ∧
        RecordsDisjoint 10 3 15 1 ∧ recState.params.widths.Legal) ∧
      (answer (documentWrite [4] 1 15 recState) = some 0x0000 ∧ InRecord 15 1 15 ∧ InRecord 15 1 17) ∧
      answer (documentRead [0xEE, 0xEE, 0xEE] 3 10 (recState.flipBit 14 7)) = some 0x0100 := by
  decide +kernel

end Sys2Proof.Tests
end

section
/-! The classes of illegal words and the core's one answer to them (30_encoding.md R55, R57), and the host's CRCFOLD on a
quiet core (30_encoding.md R62). -/

namespace Sys2Proof

variable {W : Widths} {cmd : Nat}

/-! ## Legality, read from the fields -/

/-- On a word of `CW` bits the top quotient is already the two-bit field (R50, R51). -/
theorem opField_eq_div (h : cmd < 2 ^ W.cw) : opField W cmd = cmd / 2 ^ (W.sw + W.aw) := by
  rw [pow_cw, Nat.mul_comm] at h
  exact Nat.mod_eq_of_lt (Nat.div_lt_of_lt_mul h)

/-- R55's four classes, of the fields. -/
theorem legal_eq_false_iff (W : Widths) (cmd : Nat) :
    legal W cmd = false ↔
      opField W cmd = 0 ∨ (opField W cmd = 1 ∧ zeroField W cmd ≠ 0) ∨ (2 ≤ opField W cmd ∧ sizeField W cmd = 0) ∨
        (2 ≤ opField W cmd ∧ W.lastAddress < addrField W cmd + sizeField W cmd + 1) := by
  have hop := opField_lt W cmd
  simp only [legal, Bool.or_eq_false_iff, Bool.and_eq_false_iff, decide_eq_false_iff_not]
  omega

/-! ## What a word decodes to (R53) -/

theorem decode_op_zero (h : opField W cmd = 0) : decode W cmd = .reserved (cmd % 2 ^ W.cw) := by
  simp [decode, h]

theorem decode_op_one_reserved (h : opField W cmd = 1) (hz : zeroField W cmd ≠ 0) :
    decode W cmd = .reserved (cmd % 2 ^ W.cw) := by
  simp [decode, h, hz]

theorem decode_op_one_crcupd (h : opField W cmd = 1) (hz : zeroField W cmd = 0) :
    decode W cmd = .crcupd (accField cmd) (dataField cmd) := by
  simp [decode, h, hz]

theorem decode_op_two (h : opField W cmd = 2) : decode W cmd = .wrrec (addrField W cmd) (sizeField W cmd) := by
  simp [decode, h]

theorem decode_op_three (h : opField W cmd = 3) : decode W cmd = .rdrec (addrField W cmd) (sizeField W cmd) := by
  simp [decode, h]

/-- The acceptance test of a record command refuses the operands that R56 refuses. -/
theorem legalOperands_fields_eq_false (hop : 2 ≤ opField W cmd) (h : legal W cmd = false) :
    Machine.legalOperands W (addrField W cmd) (sizeField W cmd) = false := by
  rw [legal_eq_false_iff] at h
  rw [Bool.eq_false_iff, Ne, Machine.legalOperands_iff]
  omega

/-- The word of a CRCUPD decodes to it: with legal widths its two bytes lie below the `op` field (R52). -/
theorem decode_encode_crcupd (hW : W.Legal) (acc data : Byte) :
    decode W (encode W (.crcupd acc data)) = .crcupd acc data := by
  have hacc := acc.isLt
  have hdata := data.isLt
  have hpos := Nat.two_pow_pos (W.sw + W.aw - 16)
  have hw : encode W (.crcupd acc data) = 2 ^ 16 * 2 ^ (W.sw + W.aw - 16) + (acc.toNat * 2 ^ 8 + data.toNat) := by
    rw [pow_zeroField hW, ← Nat.add_assoc]
    rfl
  have hop : opField W (encode W (.crcupd acc data)) = 1 := by
    have hlow : acc.toNat * 2 ^ 8 + data.toNat < 2 ^ (W.sw + W.aw) := by
      have := two_bytes_fit hW
      omega
    rw [opField, hw, pow_zeroField hW, Nat.add_div_left _ (Nat.two_pow_pos _), Nat.div_eq_of_lt hlow]
  have hzero : zeroField W (encode W (.crcupd acc data)) = 0 := by
    rw [zeroField, hw, Nat.mul_add_div (Nat.two_pow_pos 16), Nat.div_eq_of_lt (by omega), Nat.add_zero, Nat.mod_self]
  have haccField : accField (encode W (.crcupd acc data)) = acc := by
    apply BitVec.eq_of_toNat_eq
    rw [accField, hw, BitVec.toNat_ofNat]
    omega
  have hdataField : dataField (encode W (.crcupd acc data)) = data := by
    apply BitVec.eq_of_toNat_eq
    rw [dataField, hw, BitVec.toNat_ofNat]
    omega
  rw [decode_op_one_crcupd hop hzero, haccField, hdataField]

end Sys2Proof

namespace Sys2Proof.Machine

variable {s : State}

/-! ## The answer to an illegal word (R57) -/

theorem responseWord_illegal : responseWord .illegal 0 = 0x0200#16 := by decide

theorem exec_crcupd_idle (h : s.phase = .idle) (acc data : Byte) :
    exec (.crcupd acc data) s = .next (s.respond .ok (crc8Update acc data)) := by
  rw [exec_crcupd_eq, execCrcupd, whenReady_idle h]

theorem exec_reserved_idle (h : s.phase = .idle) (w : Nat) : exec (.reserved w) s = .next (s.respond .illegal 0) := by
  rw [exec_reserved_eq, execReserved, whenReady_idle h, respondIllegal]

theorem exec_wrrec_illegal {a n : Nat} (h : s.phase = .idle) (hl : legalOperands s.params.widths a n = false) :
    exec (.wrrec a n) s = .next (s.respond .illegal 0) := by
  rw [exec_wrrec_eq, execWrrec, whenReady_idle h, hl, if_neg Bool.false_ne_true, respondIllegal]

theorem exec_rdrec_illegal {a n : Nat} (h : s.phase = .idle) (hl : legalOperands s.params.widths a n = false) :
    exec (.rdrec a n) s = .next (s.respond .illegal 0) := by
  rw [exec_rdrec_eq, execRdrec, whenReady_idle h, hl, if_neg Bool.false_ne_true, respondIllegal]

/-- All four classes of illegal words have one effect, though only two of them reach the reserved row (R55, R57). -/
theorem exec_decode_illegal {cmd : Nat} (h : s.phase = .idle) (hl : legal s.params.widths cmd = false) :
    exec (decode s.params.widths cmd) s = .next (s.respond .illegal 0) := by
  have hop := opField_lt s.params.widths cmd
  obtain h0 | h1 | h2 | h3 : opField s.params.widths cmd = 0 ∨ opField s.params.widths cmd = 1 ∨
      opField s.params.widths cmd = 2 ∨ opField s.params.widths cmd = 3 := by omega
  · rw [decode_op_zero h0, exec_reserved_idle h]
  · have hz : zeroField s.params.widths cmd ≠ 0 := by
      rw [legal_eq_false_iff] at hl
      omega
    rw [decode_op_one_reserved h1 hz, exec_reserved_idle h]
  · rw [decode_op_two h2, exec_wrrec_illegal h (legalOperands_fields_eq_false (by omega) hl)]
  · rw [decode_op_three h3, exec_rdrec_illegal h (legalOperands_fields_eq_false (by omega) hl)]

/-- An idle core answers a command, or leaves IDLE: no command is a no-op (R55). -/
theorem exec_idle_ne_self (h : s.phase = .idle) (i : Instr) : exec i s ≠ .next s := by
  intro hs
  obtain ⟨hb, -⟩ | ⟨-, ⟨st, r, hr⟩ | ⟨a, n, p, hp, -, ha⟩⟩ := exec_cases i s
  · exact hb h
  · have hsame : s.respond st r = s := Host.Outcome.next.inj (hr.symm.trans hs)
    have := congrArg (fun t => t.responses.length) hsame
    simp at this
  · have hsame : s.accept a n p = s := Host.Outcome.next.inj (ha.symm.trans hs)
    have hphase : p = .idle := (congrArg State.phase hsame).trans h
    rcases hp with rfl | rfl <;> cases hphase

/-- Settles O18: R57's effect, written out as the one response word. -/
theorem illegalCommandChangesNothing : Obligations.IllegalCommandChangesNothing := by
  intro cmd s h hl
  rw [exec_decode_illegal h hl, State.respond, responseWord_illegal]

/-- Settles O4: the classes are those of the fields, the answer is O18's, and no command leaves an idle core as it was. -/
theorem illegalWordsAreFourClasses : Obligations.IllegalWordsAreFourClasses := by
  refine ⟨fun W cmd hcmd => ?_, illegalCommandChangesNothing, fun cmd s h => exec_idle_ne_self h _⟩
  rw [legal_eq_false_iff, opField_eq_div hcmd]
  rfl

/-! ## CRCFOLD on a quiet core (R62) -/

@[simp] theorem responseResult_responseWord (st : Status) (r : Byte) : responseResult (responseWord st r) = r := by
  rw [responseResult, responseWord]
  exact BitVec.extractLsb'_append_eq_right

@[simp] theorem lastResult_respond (s : State) (st : Status) (r : Byte) : lastResult (s.respond st r) = r := by
  simp [lastResult]

/-- A quiet core takes a CRCUPD in the step that it is presented in, and answers in that step (R73). -/
theorem issueAndWait_crcupd (hW : s.params.widths.Legal) (hq : s.Quiet) (acc data : Byte) :
    issueAndWait (.crcupd acc data) s = .next (s.respond .ok (crc8Update acc data)) := by
  have hstep : step (s.issue (encode s.params.widths (.crcupd acc data))) =
      .next (s.respond .ok (crc8Update acc data)) := by
    rw [step_issue hq, decode_encode_crcupd hW, exec_crcupd_idle hq.1]
  exact stepUntilTaken_taken hstep (Nat.le_refl _)

/-- The responses of a CRCFOLD from the running value `r`: the `k`-th is the fold of the first `k + 1` bytes. -/
def foldResponses (r : Byte) (bs : List Byte) : List ResponseWord :=
  (List.range bs.length).map fun k => responseWord .ok ((bs.take (k + 1)).foldl crc8Update r)

@[simp] theorem foldResponses_nil (r : Byte) : foldResponses r [] = [] := rfl

/-- The first response is the one command's, and the rest are a CRCFOLD's from its result. -/
theorem foldResponses_cons (r b : Byte) (bs : List Byte) :
    foldResponses r (b :: bs) = responseWord .ok (crc8Update r b) :: foldResponses (crc8Update r b) bs := by
  simp [foldResponses, List.range_succ_eq_map, Function.comp_def]

theorem crcFold_cons {t : State} {r b : Byte} (bs : List Byte) (h : issueAndWait (.crcupd r b) s = .next t) :
    crcFold (b :: bs) r s = crcFold bs (lastResult t) t := by
  rw [crcFold, h]

/-- CRCFOLD from any running value: each command's `acc` operand is the result before it, so the whole is a fold. -/
theorem crcFold_quiet (bs : List Byte) (r : Byte) (hW : s.params.widths.Legal) (hq : s.Quiet) :
    crcFold bs r s = .next ({ s with responses := s.responses ++ foldResponses r bs }, bs.foldl crc8Update r) := by
  induction bs generalizing r s with
  | nil => simp [crcFold]
  | cons b bs ih =>
    rw [crcFold_cons bs (issueAndWait_crcupd hW hq r b), lastResult_respond, foldResponses_cons, List.append_cons]
    exact ih (s := s.respond .ok (crc8Update r b)) (crc8Update r b) hW hq

/-- Settles O17: the case of `crcFold_quiet` that starts from R72's `0x00`. -/
theorem crcFoldMacroComputesTheChecksum : Obligations.CrcFoldMacroComputesTheChecksum :=
  fun bs _ hW hq => crcFold_quiet bs 0x00 hW hq

end Sys2Proof.Machine
end

section
/-! The algebra of the CRC8 step (40_crc8_engine.md R71) and its fold (R72). The obstacle is that R70 shifts two working values;
the xor of the two evolves by itself, as one shift register (`crcShift`), and each fact of R71 is a fact of that register. -/

namespace Sys2Proof.Machine

/-- What one iteration of R70 adds to the shifted value: the constant when the tested low bit is 1. -/
def crcFeedback (x : Byte) : Byte := if x.getLsbD 0 then crcPoly else 0

/-- One iteration of R70, on the xor of the two working values (`xor_crcIteration`). -/
def crcShift (x : Byte) : Byte := x >>> 1 ^^^ crcFeedback x

/-! ## One iteration -/

theorem crcIteration_eq (a d : Byte) : crcIteration a d = (a >>> 1 ^^^ crcFeedback (a ^^^ d), d >>> 1) := by
  simp only [crcIteration, crcFeedback]
  split <;> simp

/-- Only the xor of the two working values is ever tested, and both are shifted together (R71 (a)). -/
theorem xor_crcIteration (a d : Byte) : (crcIteration a d).1 ^^^ (crcIteration a d).2 = crcShift (a ^^^ d) := by
  simp only [crcIteration_eq, crcShift, BitVec.ushiftRight_xor_distrib]
  ac_rfl

theorem crcFeedback_of_low_clear {x : Byte} (h : x.getLsbD 0 = false) : crcFeedback x = 0#8 := by
  rw [crcFeedback, h, if_neg Bool.false_ne_true]
  rfl

theorem crcFeedback_of_low_set {x : Byte} (h : x.getLsbD 0 = true) : crcFeedback x = crcPoly := by
  rw [crcFeedback, h, if_pos rfl]

theorem crcFeedback_xor (x y : Byte) : crcFeedback (x ^^^ y) = crcFeedback x ^^^ crcFeedback y := by
  simp only [crcFeedback, BitVec.getLsbD_xor]
  cases x.getLsbD 0 <;> cases y.getLsbD 0 <;> simp

theorem crcShift_xor (x y : Byte) : crcShift (x ^^^ y) = crcShift x ^^^ crcShift y := by
  rw [crcShift, crcFeedback_xor, BitVec.ushiftRight_xor_distrib, crcShift, crcShift]
  ac_rfl

/-- The shift clears bit 7 and the constant sets it, so bit 7 of the result remembers the bit shifted out. -/
theorem getLsbD_seven_crcShift (x : Byte) : (crcShift x).getLsbD 7 = x.getLsbD 0 := by
  cases h : x.getLsbD 0 with
  | false => simp [crcShift, crcFeedback_of_low_clear h]
  | true => simp [crcShift, crcFeedback_of_low_set h, crcPoly]

theorem crcShift_eq_zero {x : Byte} (h : crcShift x = 0#8) : x = 0#8 := by
  have hlow : x.getLsbD 0 = false := by
    rw [← getLsbD_seven_crcShift, h]
    rfl
  have hhigh : x >>> 1 = 0#8 := by
    rwa [crcShift, crcFeedback_of_low_clear hlow, BitVec.xor_zero] at h
  apply BitVec.eq_of_getLsbD_eq
  intro i _
  cases i with
  | zero => exact hlow
  | succ i => simpa [Nat.add_comm] using congrArg (·.getLsbD i) hhigh

/-- A linear map that sends only zero to zero. -/
theorem crcShift_injective : Function.Injective crcShift := by
  intro x y h
  have hzero : crcShift (x ^^^ y) = 0#8 := by rw [crcShift_xor, h, BitVec.xor_self]
  exact BitVec.xor_eq_zero_iff.mp (crcShift_eq_zero hzero)

theorem crcShift_bijective : Function.Bijective crcShift :=
  Finite.injective_iff_bijective.mp crcShift_injective

/-! ## Eight iterations -/

theorem crcIterate_snd (n : Nat) (p : Byte × Byte) : (crcIterate n p).2 = p.2 >>> n := by
  induction n generalizing p with
  | zero => simp [crcIterate]
  | succ n ih => rw [crcIterate, ih, crcIteration_eq, ← BitVec.shiftRight_add, Nat.add_comm]

theorem xor_crcIterate (n : Nat) (p : Byte × Byte) :
    (crcIterate n p).1 ^^^ (crcIterate n p).2 = crcShift^[n] (p.1 ^^^ p.2) := by
  induction n generalizing p with
  | zero => rfl
  | succ n ih => rw [crcIterate, ih, xor_crcIteration, Function.iterate_succ_apply]

/-- The step is eight shifts of the xor of its arguments: after eight iterations nothing is left of the input byte. -/
theorem crc8Update_eq_iterate (a d : Byte) : crc8Update a d = crcShift^[8] (a ^^^ d) := by
  have hd : (crcIterate crcIterations (a, d)).2 = 0#8 := by
    rw [crcIterate_snd]
    exact BitVec.ushiftRight_eq_zero (Nat.le_refl 8)
  have hxor := xor_crcIterate crcIterations (a, d)
  rwa [hd, BitVec.xor_zero] at hxor

theorem iterate_crcShift_xor (n : Nat) (x y : Byte) : crcShift^[n] (x ^^^ y) = crcShift^[n] x ^^^ crcShift^[n] y := by
  induction n generalizing x y with
  | zero => rfl
  | succ n ih => simp only [Function.iterate_succ_apply, crcShift_xor, ih]

/-! ## The step (R71) -/

/-- The table `T` of R71. -/
theorem crc8Update_zero_eq_iterate (x : Byte) : crc8Update x 0 = crcShift^[8] x :=
  (crc8Update_eq_iterate x 0).trans (congrArg _ BitVec.xor_zero)

/-- R71 (a). -/
theorem crc8Update_eq_table (a d : Byte) : crc8Update a d = crc8Update (a ^^^ d) 0 := by
  rw [crc8Update_eq_iterate, crc8Update_zero_eq_iterate]

/-- R71 (b). -/
theorem crc8Update_xor_zero (x y : Byte) : crc8Update (x ^^^ y) 0 = crc8Update x 0 ^^^ crc8Update y 0 := by
  simp only [crc8Update_zero_eq_iterate, iterate_crcShift_xor]

theorem crc8Update_comm (a d : Byte) : crc8Update a d = crc8Update d a := by
  rw [crc8Update_eq_iterate, crc8Update_eq_iterate, BitVec.xor_comm]

/-- R71 (c), in the input: xor with the accumulator is its own inverse, and each of the eight shifts is a bijection. -/
theorem crc8Update_bijective_right (a : Byte) : Function.Bijective (crc8Update a) := by
  have hxor : Function.Involutive (a ^^^ · : Byte → Byte) := fun d => by simp
  rw [funext (crc8Update_eq_iterate a)]
  exact (crcShift_bijective.iterate 8).comp hxor.bijective

/-- R71 (c), in the accumulator. -/
theorem crc8Update_bijective_left (d : Byte) : Function.Bijective (crc8Update · d) := by
  rw [funext (crc8Update_comm · d)]
  exact crc8Update_bijective_right d

/-- R71 (d). -/
theorem crc8Update_self (x : Byte) : crc8Update x x = 0 := by
  rw [crc8Update_eq_table, BitVec.xor_self]
  rfl

/-- Settles O12: R71 (a) to (d), with the single-bit entries of the table evaluated. -/
theorem crcStepIsALinearBijection : Obligations.CrcStepIsALinearBijection :=
  ⟨crc8Update_eq_table, crc8Update_xor_zero, by decide, by decide, by decide, by decide, by decide, by decide, by decide,
    by decide, by decide, crc8Update_bijective_left 0, crc8Update_bijective_right, crc8Update_bijective_left,
    crc8Update_self⟩

/-! ## The fold (R72) -/

@[simp] theorem crc8_nil : crc8 [] = 0 := rfl

theorem crc8_concat (bs : List Byte) (b : Byte) : crc8 (bs ++ [b]) = crc8Update (crc8 bs) b :=
  List.foldl_concat ..

/-- Settles O13: the fold's two equations, and the worked example evaluated. -/
theorem crcFoldLeftToRight : Obligations.CrcFoldLeftToRight :=
  ⟨crc8_nil, crc8_concat, by decide, by decide, by decide⟩

end Sys2Proof.Machine
end

section
/-! The record write-frame controller (41_write_frame.md R81 to R87): each micro-step of a WRREC, the store that the whole command
leaves, and its run. The obstacle is the payload loop of R83; its state after `i` bytes is written out as a function of the state at
acceptance (`wrrecPayloadState`), and both the net effect and the access list are read off that run. -/

namespace Sys2Proof.Machine

variable {s t : State} {m : Memory} {a n i : Nat} {p : List Byte} {b : Byte}

theorem responseWord_ok_zero : responseWord .ok 0 = 0x0000#16 := by decide

/-! ## One micro-step (R81 to R85) -/

theorem step_wRdold (hp : s.phase = .wRdold) (hc : s.powerCuts = []) (ha : s.addr < s.params.storeSize) :
    step s = .next { s with
      tmp := Memory.read s.store s.addr, phase := .wPlace,
      history := s.history ++ [.storeRead s.addr (Memory.read s.store s.addr)] } := by
  rw [step_busy_no_cuts hc (by simp [hp]), microStep, hp]
  exact readStore_inside ha

theorem step_wPlace (hp : s.phase = .wPlace) (hc : s.powerCuts = []) (hf : s.RecordFits s.addr s.size) :
    step s = .next { s with
      store := Memory.write s.store (s.addr + s.size + 1) s.tmp, phase := .wPayload,
      history := s.history ++ [.storeWrite (s.addr + s.size + 1) s.tmp] } := by
  rw [step_busy_no_cuts hc (by simp [hp]), microStep, hp]
  exact writeStore_inside hf

theorem step_wPayload (hp : s.phase = .wPayload) (hc : s.powerCuts = [])
    (ha : s.addr + 1 + s.idx < s.params.storeSize) (hb : s.src[s.idx]? = some b) :
    step s = .next { s with
      store := Memory.write s.store (s.addr + 1 + s.idx) b, acc := crc8Update s.acc b, idx := s.idx + 1,
      phase := if s.idx + 1 = s.size then .wLead else .wPayload,
      history := s.history ++ [.srcRead s.idx b, .storeWrite (s.addr + 1 + s.idx) b] } := by
  rw [step_busy_no_cuts hc (by simp [hp]), microStep, hp]
  refine (readSource_some hb).trans ((writeStore_inside (s := s.note (.srcRead s.idx b)) ha).trans ?_)
  rw [List.append_cons]
  rfl

theorem step_wLead (hp : s.phase = .wLead) (hc : s.powerCuts = []) (ha : s.addr < s.params.storeSize) :
    step s = .next { s with
      store := Memory.write s.store s.addr s.acc, phase := .wTrail,
      history := s.history ++ [.storeWrite s.addr s.acc] } := by
  rw [step_busy_no_cuts hc (by simp [hp]), microStep, hp]
  exact writeStore_inside ha

theorem step_wTrail (hp : s.phase = .wTrail) (hc : s.powerCuts = []) (hf : s.RecordFits s.addr s.size) :
    step s = .next { s with
      store := Memory.write s.store (s.addr + s.size + 1) (~~~s.acc), phase := .idle,
      responses := s.responses ++ [0x0000#16],
      history := s.history ++ [.storeWrite (s.addr + s.size + 1) (~~~s.acc)] } := by
  rw [step_busy_no_cuts hc (by simp [hp]), microStep, hp, ← responseWord_ok_zero]
  exact writeStore_inside hf

/-- Settles O22: the micro-step with its one read inside the store. -/
theorem microStepReadsOldLeadingByte : Obligations.MicroStepReadsOldLeadingByte :=
  fun _ => step_wRdold

/-- Settles O25: the micro-step with its one write inside the store. -/
theorem microStepWritesLeadingGuard : Obligations.MicroStepWritesLeadingGuard :=
  fun _ => step_wLead

/-- Settles O26: the micro-step with its one write inside the store. -/
theorem microStepWritesTrailingGuard : Obligations.MicroStepWritesTrailingGuard :=
  fun _ => step_wTrail

/-! ## The placeholder and the payload byte, under the invariant (R82, R83) -/

/-- A byte is never its own complement, so a record with equal guard bytes is not valid (R82, R131). -/
theorem not_validRecord_of_guards_eq (h : Memory.read m a = Memory.read m (a + n + 1)) : ¬ValidRecord m a n := by
  rintro ⟨hlead, htrail⟩
  have hself : crc8 (payloadOf m a n) = ~~~crc8 (payloadOf m a n) := hlead.symm.trans (h.trans htrail)
  exact absurd (congrArg (·.getLsbD 0) hself) (by simp)

theorem phaseInv_wPlace (h : s.Inv) (hp : s.phase = .wPlace) :
    s.RecordLegal ∧ s.idx = 0 ∧ s.acc = crcInit ∧ Memory.read s.store s.addr = s.tmp := by
  obtain ⟨-, -, -, -, hinv⟩ := h
  simpa only [State.PhaseInv, hp] using hinv

theorem phaseInv_wPayload (h : s.Inv) (hp : s.phase = .wPayload) :
    s.RecordLegal ∧ s.idx < s.size ∧ s.PayloadWritten ∧ s.GuardsEqual := by
  obtain ⟨-, -, -, -, hinv⟩ := h
  simpa only [State.PhaseInv, hp] using hinv

/-- Settles O23: TMP is the leading byte, so its copy in the trailing cell makes the guards equal. -/
theorem microStepWritesPlaceholder : Obligations.MicroStepWritesPlaceholder := by
  intro s hinv hp hc hf
  obtain ⟨-, hidx, -, htmp⟩ := phaseInv_wPlace hinv hp
  obtain ⟨-, -, hwf, -, -⟩ := hinv
  have htrail : Memory.read (Memory.write s.store (s.addr + s.size + 1) s.tmp) (s.addr + s.size + 1) = s.tmp :=
    read_write_same hwf _ _
  have hlead : Memory.read (Memory.write s.store (s.addr + s.size + 1) s.tmp) s.addr = s.tmp :=
    (read_write_other (by omega) _).trans htmp
  have hguards := hlead.trans htrail.symm
  exact ⟨_, step_wPlace hp hc hf, rfl, htrail, hguards, not_validRecord_of_guards_eq hguards, hidx⟩

/-- The checksum of the first `i + 1` bytes is one fold step from that of the first `i`. -/
theorem crc8_take_succ {bs : List Byte} (h : bs[i]? = some b) :
    crc8 (bs.take (i + 1)) = crc8Update (crc8 (bs.take i)) b := by
  rw [take_succ_of_getElem? h, crc8_concat]

/-- Settles O24: IDX grows to at most SIZE, and W_LEAD is entered with ACC the fold of all the bytes before. -/
theorem microStepWritesPayloadByte : Obligations.MicroStepWritesPayloadByte := by
  intro s b hinv hp hc hf hb
  obtain ⟨-, hlt, ⟨-, -, hacc⟩, -⟩ := phaseInv_wPayload hinv hp
  have hphase : (if s.idx + 1 = s.size then Phase.wLead else .wPayload) = .wLead ↔ s.idx + 1 = s.size := by
    simp
  refine ⟨_, hlt, step_wPayload hp hc (by omega) hb, rfl, hlt, hphase, fun hlead => ?_⟩
  rw [← hphase.mp hlead, crc8_take_succ hb, ← hacc]

/-! ## The store that a WRREC leaves (R86) -/

/-- The store's contents after the payload bytes `p` are written, in order, to the record at `a`. -/
def payloadStored (m : Memory) (a : Nat) (p : List Byte) : Memory :=
  p.zipIdx.foldl (fun m c => Memory.write m (payloadAddr a c.2) c.1) m

/-- The store's contents after the writes of a WRREC, in their order: the old leading byte as the placeholder in the trailing cell,
the payload, the leading guard, the trailing guard. -/
def recordStored (m : Memory) (a : Nat) (p : List Byte) : Memory :=
  Memory.write
    (Memory.write (payloadStored (Memory.write m (a + p.length + 1) (Memory.read m a)) a p) a (crc8 p))
    (a + p.length + 1) (~~~(crc8 p))

@[simp] theorem payloadStored_nil (m : Memory) (a : Nat) : payloadStored m a [] = m := rfl

theorem payloadStored_concat (m : Memory) (a : Nat) (p : List Byte) (b : Byte) :
    payloadStored m a (p ++ [b]) = Memory.write (payloadStored m a p) (a + 1 + p.length) b := by
  simp [payloadStored, payloadAddr, List.zipIdx_append]

theorem payloadStored_wf (h : Memory.wf m = true) (a : Nat) (p : List Byte) :
    Memory.wf (payloadStored m a p) = true := by
  induction p using List.reverseRecOn with
  | nil => exact h
  | append_singleton p b ih =>
    rw [payloadStored_concat]
    exact write_wf ih _ _

theorem read_payloadStored_outside {x : Nat} (h : x ≤ a ∨ a + p.length < x) :
    Memory.read (payloadStored m a p) x = Memory.read m x := by
  induction p using List.reverseRecOn with
  | nil => rfl
  | append_singleton p b ih =>
    rw [List.length_append, List.length_singleton] at h
    rw [payloadStored_concat, read_write_other (by omega), ih (by omega)]

theorem payloadOf_payloadStored (h : Memory.wf m = true) (a : Nat) (p : List Byte) :
    payloadOf (payloadStored m a p) a p.length = p := by
  induction p using List.reverseRecOn with
  | nil => rfl
  | append_singleton p b ih =>
    rw [List.length_append, List.length_singleton, payloadOf_succ, payloadStored_concat,
      payloadOf_write_outside (by omega), ih, read_write_same (payloadStored_wf h a p)]

theorem getElem?_payloadOf (h : i < n) (m : Memory) (a : Nat) :
    (payloadOf m a n)[i]? = some (Memory.read m (a + 1 + i)) := by
  simp [payloadOf, h]

section
variable (hwf : Memory.wf m = true)
include hwf

theorem read_recordStored_lead (a : Nat) (p : List Byte) : Memory.read (recordStored m a p) a = crc8 p := by
  rw [recordStored, read_write_other (by omega), read_write_same (payloadStored_wf (write_wf hwf _ _) _ _)]

theorem read_recordStored_trail (a : Nat) (p : List Byte) :
    Memory.read (recordStored m a p) (a + p.length + 1) = ~~~(crc8 p) :=
  read_write_same (write_wf (payloadStored_wf (write_wf hwf _ _) _ _) _ _) _ _

theorem payloadOf_recordStored (a : Nat) (p : List Byte) : payloadOf (recordStored m a p) a p.length = p := by
  rw [recordStored, payloadOf_write_outside (by omega), payloadOf_write_outside (by omega),
    payloadOf_payloadStored (write_wf hwf _ _)]

theorem recordStored_valid (a : Nat) (p : List Byte) : ValidRecord (recordStored m a p) a p.length := by
  rw [ValidRecord, payloadOf_recordStored hwf]
  exact ⟨read_recordStored_lead hwf a p, read_recordStored_trail hwf a p⟩

end

/-- All the writes of a WRREC are to cells of its record. -/
theorem read_recordStored_outside {x : Nat} (h : ¬InRecord a p.length x) :
    Memory.read (recordStored m a p) x = Memory.read m x := by
  rw [recordStored, read_write_other (by omega), read_write_other (by omega), read_payloadStored_outside (by omega),
    read_write_other (by omega)]

/-! ## The accesses of the payload loop (R87) -/

theorem payloadWrites_concat (a i : Nat) (bs : List Byte) (b : Byte) :
    payloadWrites a i (bs ++ [b]) =
      payloadWrites a i bs ++ [.srcRead (i + bs.length) b, .storeWrite (a + 1 + (i + bs.length)) b] := by
  induction bs generalizing i with
  | nil => rfl
  | cons c bs ih => simp [payloadWrites, ih, Nat.add_assoc, Nat.add_comm 1]

@[simp] theorem payloadWrites_length (a i : Nat) (bs : List Byte) :
    (payloadWrites a i bs).length = 2 * bs.length := by
  induction bs generalizing i with
  | nil => rfl
  | cons c bs ih => simp [payloadWrites, ih, Nat.mul_add]

/-- Two accesses a byte: the first `2 j` accesses are those of the first `j` bytes. -/
theorem take_payloadWrites (a i j : Nat) (bs : List Byte) :
    (payloadWrites a i bs).take (2 * j) = payloadWrites a i (bs.take j) := by
  induction j generalizing i bs with
  | zero => rfl
  | succ j ih =>
    cases bs with
    | nil => rfl
    | cons b bs => simp [payloadWrites, Nat.mul_add, ih]

/-! ## The run of a legal WRREC (R80 to R85) -/

theorem runSteps_snoc {u : State} {k : Nat} (h : runSteps k s = .next t) (hs : step t = .next u) :
    runSteps (k + 1) s = .next u :=
  (runSteps_add h).trans (runSteps_succ hs)

/-- The acceptance of legal operands (R80). -/
theorem exec_wrrec_legal (h : s.phase = .idle) (hl : legalOperands s.params.widths a n = true) :
    exec (.wrrec a n) s = .next (s.accept a n .wRdold) := by
  rw [exec_wrrec_eq, execWrrec, whenReady_idle h, if_pos hl]

/-- The state of a WRREC accepted in `s` after its placeholder and `i` payload bytes are written: about to write byte `i`, or
after the last byte the leading guard. -/
def wrrecPayloadState (s : State) (a n i : Nat) : State :=
  { s with
    phase := if i = n then .wLead else .wPayload
    acc := crc8 (s.src.take i)
    addr := a
    size := n
    idx := i
    tmp := Memory.read s.store a
    store := payloadStored (Memory.write s.store (a + n + 1) (Memory.read s.store a)) a (s.src.take i)
    history := s.history ++
      ([.storeRead a (Memory.read s.store a), .storeWrite (a + n + 1) (Memory.read s.store a)] ++
        payloadWrites a 0 (s.src.take i)) }

/-- The state of a WRREC accepted in `s` after its leading guard is written. -/
def wrrecTrailState (s : State) (a n : Nat) : State :=
  { wrrecPayloadState s a n n with
    phase := .wTrail
    store := Memory.write (wrrecPayloadState s a n n).store a (crc8 (s.src.take n))
    history := (wrrecPayloadState s a n n).history ++ [.storeWrite a (crc8 (s.src.take n))] }

/-- The state in which a WRREC accepted in `s` ends. -/
def wrrecDoneState (s : State) (a n : Nat) : State :=
  { s with
    phase := .idle
    acc := crc8 (s.src.take n)
    addr := a
    size := n
    idx := n
    tmp := Memory.read s.store a
    store := recordStored s.store a (s.src.take n)
    responses := s.responses ++ [0x0000#16]
    history := s.history ++ wrrecAccesses a (Memory.read s.store a) (s.src.take n) }

section
variable (hr : s.ReadyFor a n)
include hr

theorem runSteps_wrrec_accepted :
    runSteps 1 (s.issue (encode s.params.widths (.wrrec a n))) = .next (s.accept a n .wRdold) := by
  obtain ⟨hq, -, hl, -⟩ := hr
  obtain ⟨ha, hn⟩ := legal_operands_fit hl
  have hdecode : decode s.params.widths (encode s.params.widths (.wrrec a n)) = .wrrec a n :=
    decode_wordOf_two hn ha
  refine runSteps_succ ?_
  rw [step_issue hq, hdecode, exec_wrrec_legal hq.1 hl]

theorem runSteps_wrrec_leadRead :
    runSteps 2 (s.issue (encode s.params.widths (.wrrec a n))) =
      .next (((s.accept a n .wPlace).latch (Memory.read s.store a)).note (.storeRead a (Memory.read s.store a))) := by
  have hrun := runSteps_wrrec_accepted hr
  obtain ⟨hq, -, -, hf⟩ := hr
  have hlead : a < s.params.storeSize := by omega
  exact runSteps_snoc hrun (step_wRdold (s := s.accept a n .wRdold) rfl hq.2 hlead)

theorem runSteps_wrrec_placeholder :
    runSteps 3 (s.issue (encode s.params.widths (.wrrec a n))) = .next (wrrecPayloadState s a n 0) := by
  have hrun := runSteps_wrrec_leadRead hr
  obtain ⟨hq, -, hl, hf⟩ := hr
  have hn : 0 ≠ n := by
    have := legalOperands_iff.1 hl
    omega
  rw [runSteps_snoc hrun (step_wPlace rfl hq.2 hf), wrrecPayloadState, if_neg hn]
  simp [State.latch, State.note, State.accept, payloadWrites, crcInit]

/-- One turn of the payload loop (R83). -/
theorem step_wrrecPayloadState (hn : n ≤ s.src.length) (hi : i < n) :
    step (wrrecPayloadState s a n i) = .next (wrrecPayloadState s a n (i + 1)) := by
  obtain ⟨hq, -, -, hf⟩ := hr
  have hb : s.src[i]? = some s.src[i] := List.getElem?_eq_getElem (by omega)
  have hlen : (s.src.take i).length = i := List.length_take_of_le (by omega)
  have hpayload : a + 1 + i < s.params.storeSize := by omega
  rw [step_wPayload (s := wrrecPayloadState s a n i) (if_neg (Nat.ne_of_lt hi)) hq.2 hpayload hb]
  simp only [wrrecPayloadState, take_succ_of_getElem? hb, crc8_concat, payloadStored_concat, payloadWrites_concat, hlen,
    Nat.zero_add, List.append_assoc]
  rfl

theorem runSteps_wrrec_payload (hn : n ≤ s.src.length) (hi : i ≤ n) :
    runSteps (i + 3) (s.issue (encode s.params.widths (.wrrec a n))) = .next (wrrecPayloadState s a n i) := by
  induction i with
  | zero => exact runSteps_wrrec_placeholder hr
  | succ i ih =>
    rw [Nat.add_right_comm]
    exact runSteps_snoc (ih (Nat.le_of_succ_le hi)) (step_wrrecPayloadState hr hn hi)

theorem runSteps_wrrec_leadWritten (hn : n ≤ s.src.length) :
    runSteps (n + 4) (s.issue (encode s.params.widths (.wrrec a n))) = .next (wrrecTrailState s a n) := by
  have hrun := runSteps_wrrec_payload hr hn (Nat.le_refl n)
  obtain ⟨hq, -, -, hf⟩ := hr
  have hlead : a < s.params.storeSize := by omega
  exact runSteps_snoc hrun (step_wLead (s := wrrecPayloadState s a n n) (if_pos rfl) hq.2 hlead)

theorem runSteps_wrrec_done (hn : n ≤ s.src.length) :
    runSteps (n + 5) (s.issue (encode s.params.widths (.wrrec a n))) = .next (wrrecDoneState s a n) := by
  have hrun := runSteps_wrrec_leadWritten hr hn
  obtain ⟨hq, -, -, hf⟩ := hr
  have hlen : (s.src.take n).length = n := List.length_take_of_le hn
  rw [runSteps_snoc hrun (step_wTrail (s := wrrecTrailState s a n) rfl hq.2 hf)]
  simp only [wrrecTrailState, wrrecPayloadState, wrrecDoneState, recordStored, wrrecAccesses, hlen, List.append_assoc,
    List.cons_append, List.nil_append]

end

/-- Settles O27: the run ends in `wrrecDoneState`, whose store is the record's. -/
theorem wrrecNetEffect : Obligations.WrrecNetEffect := by
  intro s a n hq hwf hl hf hn
  have hlen : (s.src.take n).length = n := List.length_take_of_le hn
  have hlead := read_recordStored_lead hwf a (s.src.take n)
  have htrail := read_recordStored_trail hwf a (s.src.take n)
  have hpayload := payloadOf_recordStored hwf a (s.src.take n)
  have hvalid := recordStored_valid hwf a (s.src.take n)
  rw [hlen] at htrail hpayload hvalid
  refine ⟨wrrecDoneState s a n, runSteps_wrrec_done ⟨hq, hwf, hl, hf⟩ hn, hlead, fun i hi hs => ?_, htrail,
    fun x hx => read_recordStored_outside (hlen.symm ▸ hx), hvalid, hpayload, ?_⟩
  · have hcell := getElem?_payloadOf hi (recordStored s.store a (s.src.take n)) a
    rw [hpayload, List.getElem?_take_of_lt hi, List.getElem?_eq_getElem hs] at hcell
    exact (Option.some.inj hcell).symm
  · simp only [wrrecDoneState, hq.1]

/-! ## The access list of a legal WRREC (R87) -/

theorem wrrecAccesses_length (a : Nat) (b : Byte) (p : List Byte) : (wrrecAccesses a b p).length = 2 * p.length + 4 := by
  simp [wrrecAccesses]

/-- The accesses up to the end of the turn of the payload loop that writes byte `i - 1`. -/
theorem take_wrrecAccesses_payload (a : Nat) (b : Byte) (hi : i ≤ p.length) :
    (wrrecAccesses a b p).take (2 * i + 2) =
      [.storeRead a b, .storeWrite (a + p.length + 1) b] ++ payloadWrites a 0 (p.take i) := by
  have hle : 2 * i ≤ (payloadWrites a 0 p).length := by
    rw [payloadWrites_length]
    omega
  rw [wrrecAccesses, List.append_assoc]
  simp only [List.cons_append, List.nil_append, List.take_succ_cons, List.take_append_of_le_length hle,
    take_payloadWrites]

/-- The accesses up to the leading guard's: all but the last. -/
theorem take_wrrecAccesses_lead (a : Nat) (b : Byte) (p : List Byte) :
    (wrrecAccesses a b p).take (2 * p.length + 3) =
      [.storeRead a b, .storeWrite (a + p.length + 1) b] ++ payloadWrites a 0 p ++ [.storeWrite a (crc8 p)] := by
  rw [wrrecAccesses, List.take_append]
  simp

/-! ### The rows of R87's table -/

theorem wrrecPhaseAfter_payload (hn : 1 ≤ n) (hi : i ≤ n) :
    wrrecPhaseAfter n (i + 3) = if i = n then .wLead else .wPayload := by
  obtain rfl | hlt := Nat.eq_or_lt_of_le hi
  · simp [wrrecPhaseAfter]
  · simp [wrrecPhaseAfter, hlt, Nat.ne_of_lt hlt]

theorem wrrecPhaseAfter_trail (n : Nat) : wrrecPhaseAfter n (n + 4) = .wTrail := by
  simp [wrrecPhaseAfter]

theorem wrrecPhaseAfter_done (n : Nat) : wrrecPhaseAfter n (n + 5) = .idle := by
  simp [wrrecPhaseAfter]

theorem wrrecAccessCount_payload (hi : i ≤ n) : wrrecAccessCount n (i + 3) = 2 * i + 2 := by
  rw [wrrecAccessCount]
  split_ifs <;> omega

theorem wrrecAccessCount_trail (hn : 1 ≤ n) : wrrecAccessCount n (n + 4) = 2 * n + 3 := by
  rw [wrrecAccessCount]
  split_ifs <;> omega

theorem wrrecAccessCount_done (hn : 1 ≤ n) : wrrecAccessCount n (n + 5) = 2 * n + 4 := by
  rw [wrrecAccessCount]
  split_ifs <;> omega

/-- The rows of R87's table: acceptance, the leading read, the placeholder with `i` turns of the payload loop, and the two
guards. -/
theorem wrrec_row_cases {k : Nat} (hk1 : 1 ≤ k) (hk : k ≤ n + 5) :
    k = 1 ∨ k = 2 ∨ (∃ i ≤ n, k = i + 3) ∨ k = n + 4 ∨ k = n + 5 := by
  by_cases h : 3 ≤ k ∧ k ≤ n + 3
  · exact .inr (.inr (.inl ⟨k - 3, by omega⟩))
  · omega

/-- Settles O28: the rows of R87's table are the states of the run, one case a row. -/
theorem wrrecAccessList : Obligations.WrrecAccessList := by
  intro s a n k hq hwf hl hf hn hk1 hk
  have hr : s.ReadyFor a n := ⟨hq, hwf, hl, hf⟩
  have hlen : (s.src.take n).length = n := List.length_take_of_le hn
  have hpos : 1 ≤ n := (legalOperands_iff.1 hl).1
  have hsilent : ∀ j < n + 5, s.responses = s.responses ++ (if j = n + 5 then [0x0000#16] else []) := fun j hj => by
    rw [if_neg (Nat.ne_of_lt hj), List.append_nil]
  obtain rfl | rfl | ⟨i, hi, rfl⟩ | rfl | rfl := wrrec_row_cases hk1 hk
  · refine ⟨_, runSteps_wrrec_accepted hr, rfl, ?_, hsilent 1 (by omega)⟩
    simp [wrrecAccessCount]
  · refine ⟨_, runSteps_wrrec_leadRead hr, rfl, ?_, hsilent 2 (by omega)⟩
    simp [wrrecAccessCount, wrrecAccesses]
  · refine ⟨_, runSteps_wrrec_payload hr hn hi, (wrrecPhaseAfter_payload hpos hi).symm, ?_, hsilent (i + 3) (by omega)⟩
    rw [wrrecAccessCount_payload hi, take_wrrecAccesses_payload _ _ (hlen.symm ▸ hi), hlen, List.take_take,
      Nat.min_eq_left hi]
    rfl
  · refine ⟨_, runSteps_wrrec_leadWritten hr hn, (wrrecPhaseAfter_trail n).symm, ?_, hsilent (n + 4) (by omega)⟩
    have htake := take_wrrecAccesses_lead a (Memory.read s.store a) (s.src.take n)
    rw [hlen] at htake
    rw [wrrecAccessCount_trail hpos, htake]
    simp only [wrrecTrailState, wrrecPayloadState, List.append_assoc]
  · refine ⟨_, runSteps_wrrec_done hr hn, (wrrecPhaseAfter_done n).symm, ?_, ?_⟩
    · have hall := wrrecAccesses_length a (Memory.read s.store a) (s.src.take n)
      rw [hlen] at hall
      rw [wrrecAccessCount_done hpos, List.take_of_length_le (Nat.le_of_eq hall)]
      rfl
    · rw [if_pos rfl]
      rfl

end Sys2Proof.Machine
end

section
/-! The record read-verify controller, one micro-step at a time (42_read_verify.md R91 to R94). What the two payload loops turn on
is the payload of one byte more: its checksum is one fold step further (R_FOLD), and a destination that holds the payload so far
holds it after the next DstWrite (R_COPY). -/

namespace Sys2Proof.Machine

variable {s : State} {m : Memory} {a n : Nat}

theorem responseWord_verifyFail_zero : responseWord .verifyFail 0 = 0x0100#16 := by decide

/-! ## One micro-step (R91 to R94) -/

/-- A guard check (R92, R93): the byte at `x` against what the registers say, and the end of the command on a mismatch. -/
theorem readStore_guard {x : Nat} (hx : x < s.params.storeSize) (guard : State → Byte) (kind : MismatchKind)
    (pass : State → State) :
    readStore x s (fun b s => if b = guard s then .next (pass s) else failVerify kind s) =
      let noted := s.note (.storeRead x (Memory.read s.store x))
      .next (if Memory.read s.store x ≠ guard noted then (noted.respond .verifyFail 0).enter .idle else pass noted) := by
  rw [readStore_inside hx]
  by_cases hb : Memory.read s.store x = guard (s.note (.storeRead x (Memory.read s.store x)))
  · exact (if_pos hb).trans (congrArg Host.Outcome.next (if_neg (not_not_intro hb)).symm)
  · exact (if_neg hb).trans (congrArg Host.Outcome.next (if_pos hb).symm)

theorem step_rFold (hp : s.phase = .rFold) (hc : s.powerCuts = []) (ha : s.addr + 1 + s.idx < s.params.storeSize) :
    step s = .next { s with
      acc := crc8Update s.acc (Memory.read s.store (s.addr + 1 + s.idx)), idx := s.idx + 1,
      phase := if s.idx + 1 = s.size then .rLead else .rFold,
      history := s.history ++ [.storeRead (s.addr + 1 + s.idx) (Memory.read s.store (s.addr + 1 + s.idx))] } := by
  rw [step_busy_no_cuts hc (by simp [hp]), microStep, hp]
  exact readStore_inside ha

theorem step_rLead (hp : s.phase = .rLead) (hc : s.powerCuts = []) (ha : s.addr < s.params.storeSize) :
    step s = .next
      (if Memory.read s.store s.addr ≠ s.acc then
        { s with
          phase := .idle, responses := s.responses ++ [0x0100#16],
          history := s.history ++ [.storeRead s.addr (Memory.read s.store s.addr)] }
      else
        { s with
          phase := .rTrail,
          history := s.history ++ [.storeRead s.addr (Memory.read s.store s.addr)] }) := by
  rw [step_busy_no_cuts hc (by simp [hp]), microStep, hp, ← responseWord_verifyFail_zero]
  exact readStore_guard ha (·.acc) .leadingChecksumMismatch (·.enter .rTrail)

theorem step_rTrail (hp : s.phase = .rTrail) (hc : s.powerCuts = []) (hf : s.RecordFits s.addr s.size) :
    step s = .next
      (if Memory.read s.store (s.addr + s.size + 1) ≠ ~~~s.acc then
        { s with
          phase := .idle, responses := s.responses ++ [0x0100#16],
          history := s.history ++
            [.storeRead (s.addr + s.size + 1) (Memory.read s.store (s.addr + s.size + 1))] }
      else
        { s with
          phase := .rCopy, idx := 0,
          history := s.history ++
            [.storeRead (s.addr + s.size + 1) (Memory.read s.store (s.addr + s.size + 1))] }) := by
  rw [step_busy_no_cuts hc (by simp [hp]), microStep, hp, ← responseWord_verifyFail_zero]
  exact readStore_guard hf (~~~·.acc) .trailingChecksumMismatch (·.rewind.enter .rCopy)

theorem step_rCopy (hp : s.phase = .rCopy) (hc : s.powerCuts = []) (ha : s.addr + 1 + s.idx < s.params.storeSize)
    (hd : s.idx < s.dst.length) :
    step s = .next { s with
      dst := s.dst.set s.idx (Memory.read s.store (s.addr + 1 + s.idx)), idx := s.idx + 1,
      phase := if s.idx + 1 = s.size then .idle else .rCopy,
      responses := if s.idx + 1 = s.size then s.responses ++ [0x0000#16] else s.responses,
      history := s.history ++
        [.storeRead (s.addr + 1 + s.idx) (Memory.read s.store (s.addr + 1 + s.idx)),
          .dstWrite s.idx (Memory.read s.store (s.addr + 1 + s.idx))] } := by
  obtain ⟨t, ht⟩ : ∃ t, microRCopy s = .next t :=
    ⟨_, (readStore_inside ha).trans (writeDest_inside (s := s.note (.storeRead _ _)) hd)⟩
  obtain ⟨-, -, rfl⟩ := microRCopy_next ht
  rw [step_busy_no_cuts hc (by simp [hp]), microStep, ← responseWord_ok_zero]
  simpa only [hp, payloadAddr] using ht

/-! ## What the invariant says in three of the phases -/

theorem phaseInv_rFold (h : s.Inv) (hp : s.phase = .rFold) :
    s.RecordLegal ∧ s.idx < s.size ∧ s.acc = crc8 (payloadOf s.store s.addr s.idx) := by
  obtain ⟨-, -, -, -, hinv⟩ := h
  simpa only [State.PhaseInv, hp] using hinv

theorem phaseInv_rTrail (h : s.Inv) (hp : s.phase = .rTrail) :
    s.RecordLegal ∧ s.idx = s.size ∧ s.acc = crc8 (payloadOf s.store s.addr s.size) ∧
      Memory.read s.store s.addr = s.acc := by
  obtain ⟨-, -, -, -, hinv⟩ := h
  simpa only [State.PhaseInv, hp] using hinv

theorem phaseInv_rCopy (h : s.Inv) (hp : s.phase = .rCopy) :
    s.RecordLegal ∧ s.idx < s.size ∧ ValidRecord s.store s.addr s.size ∧
      s.acc = crc8 (payloadOf s.store s.addr s.size) ∧ s.idx ≤ s.dst.length ∧
      s.dst.take s.idx = payloadOf s.store s.addr s.idx := by
  obtain ⟨-, -, -, -, hinv⟩ := h
  simpa only [State.PhaseInv, hp] using hinv

/-! ## The payload of one byte more -/

theorem crc8_payloadOf_succ (m : Memory) (a n : Nat) :
    crc8 (payloadOf m a (n + 1)) = crc8Update (crc8 (payloadOf m a n)) (Memory.read m (a + 1 + n)) := by
  rw [payloadOf_succ, crc8_concat]

/-- A destination that holds the first `n` payload bytes holds one more after the DstWrite of byte `n`. -/
theorem take_set_payloadOf_succ {bs : List Byte} (hn : n < bs.length) (h : bs.take n = payloadOf m a n) :
    (bs.set n (Memory.read m (a + 1 + n))).take (n + 1) = payloadOf m a (n + 1) := by
  rw [take_succ_of_getElem? (List.getElem?_set_self hn), List.take_set_of_le (Nat.le_refl n), h, payloadOf_succ]

/-! ## The statements -/

/-- Settles O31: the micro-step with its one read inside the store. -/
theorem microStepChecksLeadingGuard : Obligations.MicroStepChecksLeadingGuard :=
  fun _ => step_rLead

/-- Settles O32: the invariant keeps what the leading check found, and the micro-step compares the trailing byte. -/
theorem microStepChecksTrailingGuard : Obligations.MicroStepChecksTrailingGuard := by
  intro s hinv hp hc hf
  obtain ⟨-, -, -, hlead⟩ := phaseInv_rTrail hinv hp
  exact ⟨hlead, step_rTrail hp hc hf⟩

/-- Settles O30: IDX grows to at most SIZE, and R_LEAD is entered with ACC one fold step past all the bytes before. -/
theorem microStepFoldsPayloadByte : Obligations.MicroStepFoldsPayloadByte := by
  intro s hinv hp hc hf
  obtain ⟨-, hlt, hacc⟩ := phaseInv_rFold hinv hp
  have hphase : (if s.idx + 1 = s.size then Phase.rLead else .rFold) = .rLead ↔ s.idx + 1 = s.size := by
    simp
  refine ⟨_, hlt, step_rFold hp hc (by omega), rfl, hlt, hphase, fun hlead => ?_⟩
  rw [← hphase.mp hlead, crc8_payloadOf_succ, ← hacc]

/-- Settles O33: the record was valid when R_COPY was entered and the copy leaves the store as it is, so with the last byte the
destination holds the verified payload. -/
theorem microStepCopiesPayloadByte : Obligations.MicroStepCopiesPayloadByte := by
  intro s hinv hp hc hf hroom
  obtain ⟨-, hlt, hvalid, -, -, hcopied⟩ := phaseInv_rCopy hinv hp
  have hd : s.idx < s.dst.length := Nat.lt_of_lt_of_le hlt hroom
  have hphase : (if s.idx + 1 = s.size then Phase.idle else .rCopy) = .idle ↔ s.idx + 1 = s.size := by
    simp
  refine ⟨_, hlt, step_rCopy hp hc (by omega) hd, rfl, hlt, hphase, fun hidle => ⟨hvalid, ?_⟩⟩
  rw [← hphase.mp hidle]
  exact take_set_payloadOf_succ hd hcopied

end Sys2Proof.Machine
end

section
/-! The two mismatches of an RDREC (60_exceptions.md R101, R102). The kinds are told apart by the phase that raises them; their
micro-steps differ in nothing but the address that was read. -/

namespace Sys2Proof.Machine

variable {s : State} {kind : MismatchKind} {a : Nat}

/-! ## The next store access in the guard phases -/

theorem nextStoreAddress_rLead (hp : s.phase = .rLead) : s.nextStoreAddress = some s.addr := by
  rw [State.nextStoreAddress, hp, leadAddr]

theorem nextStoreAddress_rTrail (hp : s.phase = .rTrail) : s.nextStoreAddress = some (s.addr + s.size + 1) := by
  rw [State.nextStoreAddress, hp, trailAddr]

/-! ## Where a mismatch is found -/

/-- Each kind has the one phase that raises it (R101). -/
theorem mismatchFound_eq_some_iff :
    s.mismatchFound = some kind ↔
      (kind = .leadingChecksumMismatch ∧ s.phase = .rLead ∧ Memory.read s.store s.addr ≠ s.acc) ∨
        (kind = .trailingChecksumMismatch ∧ s.phase = .rTrail ∧
          Memory.read s.store (s.addr + s.size + 1) ≠ ~~~s.acc) := by
  rw [State.mismatchFound]
  cases hp : s.phase
  case rLead => simp [and_comm, eq_comm]
  case rTrail => simp [and_comm, eq_comm]
  all_goals simp

/-- The kind occurs in no part of the next state (R102): the one trace of it is the address of the read, on the store's side. -/
theorem step_of_mismatchFound (hk : s.mismatchFound = some kind) (hc : s.powerCuts = [])
    (ha : s.nextStoreAddress = some a) (hlt : a < s.params.storeSize) :
    step s = .next { s with
      phase := .idle, responses := s.responses ++ [0x0100#16],
      history := s.history ++ [.storeRead a (Memory.read s.store a)] } := by
  obtain ⟨-, hp, hne⟩ | ⟨-, hp, hne⟩ := mismatchFound_eq_some_iff.mp hk
  · obtain rfl : s.addr = a := Option.some.inj ((nextStoreAddress_rLead hp).symm.trans ha)
    rw [step_rLead hp hc hlt, if_pos hne]
  · obtain rfl : s.addr + s.size + 1 = a := Option.some.inj ((nextStoreAddress_rTrail hp).symm.trans ha)
    rw [step_rTrail hp hc hlt, if_pos hne]

/-- Settles O37: `step_of_mismatchFound` gives one next state for both kinds, and it changes neither the store nor DST. -/
theorem mismatchKindsSurfaceIdentically : Obligations.MismatchKindsSurfaceIdentically :=
  fun _ _ _ hk hc ha hlt => ⟨_, step_of_mismatchFound hk hc ha hlt, rfl, rfl, rfl, rfl⟩

end Sys2Proof.Machine
end

section
/-! Commands to a quiet core as the host makes them (30_encoding.md R61). A command's run is split at its acceptance: after it the
core is busy at every step until it ends idle (`BusyRun`), which is both a run of `runSteps` and what the host's waiting gives. -/

namespace Sys2Proof.Machine

variable {s t u : State} {a n k fuel : Nat}

/-! ## Runs of a busy core -/

/-- `k` steps from `s` to `t`, each taken by a busy core. -/
def BusyRun (k : Nat) (s t : State) : Prop :=
  runSteps k s = .next t ∧ ∀ j < k, ∀ u, runSteps j s = .next u → u.phase ≠ .idle

theorem busyRun_zero (s : State) : BusyRun 0 s s := ⟨rfl, fun _ hj => absurd hj (Nat.not_lt_zero _)⟩

theorem BusyRun.snoc (h : BusyRun k s t) (hb : t.phase ≠ .idle) (hs : step t = .next u) : BusyRun (k + 1) s u := by
  obtain ⟨hrun, hbusy⟩ := h
  refine ⟨runSteps_snoc hrun hs, fun j hj v hv => ?_⟩
  obtain hlt | rfl := Nat.lt_succ_iff_lt_or_eq.mp hj
  · exact hbusy j hlt v hv
  · obtain rfl : t = v := Host.Outcome.next.inj (hrun.symm.trans hv)
    exact hb

/-- A busy run that ends idle within the host's patience is the whole of what the host waits for. -/
theorem BusyRun.finishCommand_eq (h : BusyRun k s t) (hk : k ≤ 2 * s.params.storeSize + 8) (ht : t.phase = .idle) :
    finishCommand s = .next t :=
  stepUntilIdle_of_runSteps hk h.1 ht h.2

/-- What every step of a busy core keeps holds where the host's waiting ends. -/
theorem stepUntilIdle_keeps {P : State → Prop}
    (hstep : ∀ s t, s.phase ≠ .idle → P s → step s = .next t → P t) (hs : P s)
    (h : stepUntilIdle fuel s = .next t) : P t := by
  induction fuel generalizing s with
  | zero =>
    cases h
    exact hs
  | succ fuel ih =>
    rw [stepUntilIdle] at h
    split at h
    · cases h
      exact hs
    · next hb =>
      obtain ⟨v, hv, hrest⟩ := afterRun_eq_next.mp h
      exact ih (hstep s v hb hs hv) hrest

/-! ## A call -/

/-- Accepting a command takes no move of the host's plan. -/
theorem exec_hostMoves {i : Instr} (h : exec i s = .next t) : t.hostMoves = s.hostMoves := by
  obtain ⟨-, he⟩ | ⟨-, ⟨_, _, he⟩ | ⟨_, _, _, -, -, he⟩⟩ := exec_cases i s <;>
    obtain rfl := Host.Outcome.next.inj (he.symm.trans h) <;> rfl

theorem newResponse_of_append {r : ResponseWord} (h : u.responses = s.responses ++ [r]) : newResponse s u = some r := by
  simp [newResponse, h]

theorem newResponse_of_eq (h : u.responses = s.responses) : newResponse s u = none := by
  simp [newResponse, h]

/-- A quiet core takes the command in the step that it is presented in. -/
theorem callCommand_quiet {i : Instr} (hq : s.Quiet) (hd : decode s.params.widths (encode s.params.widths i) = i)
    (he : exec i s = .next t) :
    callCommand i s = afterRun (finishCommand t) fun u => .next (u, newResponse s u) := by
  have hstep : step (s.issue (encode s.params.widths i)) = .next t := by rw [step_issue hq, hd, he]
  have htaken : issueAndWait i s = .next t :=
    stepUntilTaken_taken hstep (Nat.le_of_eq (congrArg List.length (exec_hostMoves he)))
  rw [callCommand, htaken, afterRun_next]

theorem callCommand_of_busyRun {i : Instr} {r : ResponseWord} (hq : s.Quiet)
    (hd : decode s.params.widths (encode s.params.widths i) = i) (he : exec i s = .next t) (hrun : BusyRun k t u)
    (hk : k ≤ 2 * t.params.storeSize + 8) (hu : u.phase = .idle) (hr : u.responses = s.responses ++ [r]) :
    callCommand i s = .next (u, some r) := by
  rw [callCommand_quiet hq hd he, hrun.finishCommand_eq hk hu, afterRun_next, newResponse_of_append hr]

/-! ## The step and the fold as calls (R70, R72) -/

theorem documentUpdate_quiet (hW : s.params.widths.Legal) (hq : s.Quiet) (acc data : Byte) :
    documentUpdate acc data s =
      .next (s.respond .ok (crc8Update acc data), some (responseWord .ok (crc8Update acc data))) := by
  rw [documentUpdate_idle hq.1]
  exact callCommand_of_busyRun hq (decode_encode_crcupd hW acc data) (exec_crcupd_idle hq.1 acc data) (busyRun_zero _)
    (Nat.zero_le _) hq.1 rfl

theorem documentFoldIsDeterministic : DocumentFoldIsDeterministic :=
  ⟨fun acc data _ hW hq => ⟨_, documentUpdate_quiet hW hq acc data⟩, fun bs _ hW hq => ⟨_, crcFold_quiet bs 0x00 hW hq⟩⟩

/-! ## The call of a WRREC (R80 to R86) -/

theorem wrrecPhaseAfter_ne_idle (h : k < n + 5) : wrrecPhaseAfter n k ≠ .idle := by
  intro hidle
  rw [wrrecPhaseAfter] at hidle
  split_ifs at hidle
  omega

/-- The phase column of R87's table is IDLE in its last row only. -/
theorem busyRun_wrrec (hr : s.ReadyFor a n) (hn : n ≤ s.src.length) :
    BusyRun (n + 4) (s.accept a n .wRdold) (wrrecDoneState s a n) := by
  have hfrom (j : Nat) : runSteps (1 + j) (s.issue (encode s.params.widths (.wrrec a n))) =
      runSteps j (s.accept a n .wRdold) := runSteps_add (runSteps_wrrec_accepted hr)
  refine ⟨?_, fun j hj u hu => ?_⟩
  · rw [← hfrom, Nat.add_comm 1]
    exact runSteps_wrrec_done hr hn
  · obtain ⟨hq, hwf, hl, hf⟩ := hr
    obtain ⟨t, ht, hphase, -, -⟩ := wrrecAccessList s a n (1 + j) hq hwf hl hf hn (by omega) (by omega)
    obtain rfl : t = u := Host.Outcome.next.inj (ht.symm.trans ((hfrom j).trans hu))
    rw [hphase]
    exact wrrecPhaseAfter_ne_idle (by omega)

theorem documentWrite_ready {p : List Byte} (hr : s.ReadyFor a p.length) :
    documentWrite p p.length a s = .next (wrrecDoneState (s.putSrc p) a p.length, some 0x0000#16) := by
  have hrun := busyRun_wrrec (s := s.putSrc p) hr (Nat.le_refl _)
  obtain ⟨hq, -, hl, hf⟩ := hr
  obtain ⟨ha, hn⟩ := legal_operands_fit hl
  rw [documentWrite_idle hq.1 p (fitsRow_of_legalOperands hl).1]
  refine callCommand_of_busyRun (s := s.putSrc p) hq (decode_wordOf_two hn ha) (exec_wrrec_legal (s := s.putSrc p) hq.1 hl)
    hrun ?_ rfl rfl
  simp only [accept_params, putSrc_params]
  omega

end Sys2Proof.Machine
end

section
/-! The run of a legal RDREC (42_read_verify.md R90 to R94), its states written out as functions of the state at acceptance: the
fold of the payload, then either a failed guard or the copy. -/

namespace Sys2Proof.Machine

variable {s t : State} {a n i : Nat}

/-! ## The accesses and the bytes of the payload loops (R97) -/

theorem payloadReads_concat (a i : Nat) (bs : List Byte) (b : Byte) :
    payloadReads a i (bs ++ [b]) = payloadReads a i bs ++ [.storeRead (a + 1 + (i + bs.length)) b] := by
  induction bs generalizing i with
  | nil => rfl
  | cons c bs ih => simp [payloadReads, ih, Nat.add_assoc, Nat.add_comm 1]

theorem payloadCopies_concat (a i : Nat) (bs : List Byte) (b : Byte) :
    payloadCopies a i (bs ++ [b]) =
      payloadCopies a i bs ++ [.storeRead (a + 1 + (i + bs.length)) b, .dstWrite (i + bs.length) b] := by
  induction bs generalizing i with
  | nil => rfl
  | cons c bs ih => simp [payloadCopies, ih, Nat.add_assoc, Nat.add_comm 1]

/-- The byte after a filled beginning of a buffer joins it. -/
theorem set_append_drop {bs ds : List Byte} (h : bs.length < ds.length) (b : Byte) :
    (bs ++ ds.drop bs.length).set bs.length b = (bs ++ [b]) ++ ds.drop (bs.length + 1) := by
  rw [List.set_append_right _ _ (Nat.le_refl _), Nat.sub_self, List.drop_eq_getElem_cons h, List.set_cons_zero,
    List.append_cons]

/-! ## The states of the run -/

/-- The state of an RDREC accepted in `s` after `i` payload bytes are folded: about to fold byte `i`, or after the last byte to
check the leading guard. -/
def rdrecFoldState (s : State) (a n i : Nat) : State :=
  { s with
    phase := if i = n then .rLead else .rFold
    acc := crc8 (payloadOf s.store a i)
    addr := a
    size := n
    idx := i
    history := s.history ++ payloadReads a 0 (payloadOf s.store a i) }

/-- The state in which an RDREC accepted in `s` ends at a guard that does not match, after the reads `checks` of the guards. -/
def rdrecFailState (s : State) (a n : Nat) (checks : List Access) : State :=
  { rdrecFoldState s a n n with
    phase := .idle
    responses := s.responses ++ [0x0100#16]
    history := (rdrecFoldState s a n n).history ++ checks }

/-- The state of an RDREC accepted in `s` after its leading guard has matched. -/
def rdrecTrailState (s : State) (a n : Nat) : State :=
  { rdrecFoldState s a n n with
    phase := .rTrail
    history := (rdrecFoldState s a n n).history ++ [.storeRead a (Memory.read s.store a)] }

/-- The state of an RDREC accepted in `s` after both guards have matched and `i` payload bytes are copied; with the last byte the
command has ended. -/
def rdrecCopyState (s : State) (a n i : Nat) : State :=
  { rdrecTrailState s a n with
    phase := if i = n then .idle else .rCopy
    idx := i
    dst := payloadOf s.store a i ++ s.dst.drop i
    responses := if i = n then s.responses ++ [0x0000#16] else s.responses
    history := (rdrecTrailState s a n).history ++ [.storeRead (a + n + 1) (Memory.read s.store (a + n + 1))] ++
      payloadCopies a 0 (payloadOf s.store a i) }

/-! ## The run -/

/-- The acceptance of legal operands (R90). -/
theorem exec_rdrec_legal (h : s.phase = .idle) (hl : legalOperands s.params.widths a n = true) :
    exec (.rdrec a n) s = .next (s.accept a n .rFold) := by
  rw [exec_rdrec_eq, execRdrec, whenReady_idle h, if_pos hl]

section
variable (hq : s.Quiet) (hl : legalOperands s.params.widths a n = true) (hf : s.RecordFits a n)
include hq hl

theorem step_rdrec_accepted : step (s.issue (encode s.params.widths (.rdrec a n))) = .next (s.accept a n .rFold) := by
  obtain ⟨ha, hn⟩ := legal_operands_fit hl
  have hdecode : decode s.params.widths (encode s.params.widths (.rdrec a n)) = .rdrec a n := decode_wordOf_three hn ha
  rw [step_issue hq, hdecode, exec_rdrec_legal hq.1 hl]

omit hq in
theorem rdrecFoldState_zero : rdrecFoldState s a n 0 = s.accept a n .rFold := by
  have hn : 0 ≠ n := by
    have := legalOperands_iff.1 hl
    omega
  rw [rdrecFoldState, if_neg hn]
  simp [State.accept, payloadOf, payloadReads, crcInit]

include hf

omit hl in
/-- One turn of the fold loop (R91). -/
theorem step_rdrecFoldState (hi : i < n) : step (rdrecFoldState s a n i) = .next (rdrecFoldState s a n (i + 1)) := by
  have hpayload : a + 1 + i < s.params.storeSize := by omega
  rw [step_rFold (s := rdrecFoldState s a n i) (if_neg (Nat.ne_of_lt hi)) hq.2 hpayload]
  simp only [rdrecFoldState, payloadOf_succ, crc8_concat, payloadReads_concat, payloadOf_length, Nat.zero_add,
    List.append_assoc]
  rfl

theorem busyRun_rdrec_fold (hi : i ≤ n) : BusyRun i (s.accept a n .rFold) (rdrecFoldState s a n i) := by
  induction i with
  | zero =>
    rw [rdrecFoldState_zero hl]
    exact busyRun_zero _
  | succ i ih =>
    have hphase : (rdrecFoldState s a n i).phase = .rFold := if_neg (Nat.ne_of_lt hi)
    exact (ih (Nat.le_of_succ_le hi)).snoc (by simp [hphase]) (step_rdrecFoldState hq hf hi)

/-- The leading guard (R92), with ACC the checksum of the stored payload. -/
theorem busyRun_rdrec_lead :
    BusyRun (n + 1) (s.accept a n .rFold)
      (if Memory.read s.store a ≠ crc8 (payloadOf s.store a n) then
        rdrecFailState s a n [.storeRead a (Memory.read s.store a)]
      else rdrecTrailState s a n) := by
  have hphase : (rdrecFoldState s a n n).phase = .rLead := if_pos rfl
  have hlead : a < s.params.storeSize := by omega
  exact (busyRun_rdrec_fold hq hl hf (Nat.le_refl n)).snoc (by simp [hphase]) (step_rLead hphase hq.2 hlead)

/-- The trailing guard (R93), reached only past the leading one. -/
theorem busyRun_rdrec_trail (hlead : Memory.read s.store a = crc8 (payloadOf s.store a n)) :
    BusyRun (n + 2) (s.accept a n .rFold)
      (if Memory.read s.store (a + n + 1) ≠ ~~~crc8 (payloadOf s.store a n) then
        rdrecFailState s a n [.storeRead a (Memory.read s.store a),
          .storeRead (a + n + 1) (Memory.read s.store (a + n + 1))]
      else rdrecCopyState s a n 0) := by
  have hrun := busyRun_rdrec_lead hq hl hf
  rw [if_neg (not_not_intro hlead)] at hrun
  have hn : 0 ≠ n := by
    have := legalOperands_iff.1 hl
    omega
  have hstep := step_rTrail (s := rdrecTrailState s a n) rfl hq.2 hf
  refine hrun.snoc (by simp [rdrecTrailState]) (hstep.trans (congrArg Host.Outcome.next ?_))
  refine if_congr Iff.rfl ?_ ?_
  · simp [rdrecFailState, rdrecTrailState, rdrecFoldState]
  · simp [rdrecCopyState, rdrecTrailState, rdrecFoldState, payloadOf, payloadCopies, hn]

/-- An RDREC of a record that is not valid ends at one of the two guards (R95). -/
theorem busyRun_rdrec_invalid (h : ¬ValidRecord s.store a n) :
    ∃ k checks, k ≤ n + 2 ∧ BusyRun k (s.accept a n .rFold) (rdrecFailState s a n checks) := by
  by_cases hlead : Memory.read s.store a = crc8 (payloadOf s.store a n)
  · have htrail : Memory.read s.store (a + n + 1) ≠ ~~~crc8 (payloadOf s.store a n) := fun ht => h ⟨hlead, ht⟩
    have hrun := busyRun_rdrec_trail hq hl hf hlead
    rw [if_pos htrail] at hrun
    exact ⟨n + 2, _, Nat.le_refl _, hrun⟩
  · have hrun := busyRun_rdrec_lead hq hl hf
    rw [if_pos hlead] at hrun
    exact ⟨n + 1, _, Nat.le_succ _, hrun⟩

omit hl in
/-- One turn of the copy loop (R94). -/
theorem step_rdrecCopyState (hroom : n ≤ s.dst.length) (hi : i < n) :
    step (rdrecCopyState s a n i) = .next (rdrecCopyState s a n (i + 1)) := by
  have hpayload : a + 1 + i < s.params.storeSize := by omega
  have hd : i < (payloadOf s.store a i ++ s.dst.drop i).length := by
    simp only [List.length_append, payloadOf_length, List.length_drop]
    omega
  have hset := set_append_drop (bs := payloadOf s.store a i) (ds := s.dst) (by rw [payloadOf_length]; omega)
    (Memory.read s.store (a + 1 + i))
  rw [payloadOf_length] at hset
  rw [step_rCopy (s := rdrecCopyState s a n i) (if_neg (Nat.ne_of_lt hi)) hq.2 hpayload hd]
  simp only [rdrecCopyState, rdrecTrailState, rdrecFoldState, hset, payloadOf_succ, payloadCopies_concat,
    payloadOf_length, Nat.zero_add, List.append_assoc, if_neg (Nat.ne_of_lt hi)]

/-- An RDREC of a valid record copies its payload (R95). -/
theorem busyRun_rdrec_copy (h : ValidRecord s.store a n) (hroom : n ≤ s.dst.length) (hi : i ≤ n) :
    BusyRun (n + 2 + i) (s.accept a n .rFold) (rdrecCopyState s a n i) := by
  induction i with
  | zero =>
    have hrun := busyRun_rdrec_trail hq hl hf h.1
    rwa [if_neg (not_not_intro h.2)] at hrun
  | succ i ih =>
    have hphase : (rdrecCopyState s a n i).phase = .rCopy := if_neg (Nat.ne_of_lt hi)
    exact (ih (Nat.le_of_succ_le hi)).snoc (by simp [hphase]) (step_rdrecCopyState hq hf hroom hi)

end

/-! ## Equal guards (R131) -/

/-- Settles O38: a byte is never its own complement, so a uniform region is no valid record, and its RDREC runs to
`rdrecFailState`. -/
theorem equalGuardsNeverValidate : Obligations.EqualGuardsNeverValidate := by
  refine ⟨fun _ _ _ => not_validRecord_of_guards_eq, fun m a n hv => ?_, fun s a n v hq hl hf huniform => ?_⟩
  · rw [hv.1, hv.2, ← BitVec.not_xor_right, BitVec.xor_self]
    rfl
  · have hguards : Memory.read s.store a = Memory.read s.store (a + n + 1) :=
      (huniform a (by omega)).trans (huniform (a + n + 1) (by omega)).symm
    obtain ⟨k, checks, -, hrun, -⟩ := busyRun_rdrec_invalid hq hl hf (not_validRecord_of_guards_eq hguards)
    exact ⟨k + 1, _, (runSteps_succ (step_rdrec_accepted hq hl)).trans hrun, rfl, rfl, rfl, rfl, rfl⟩

end Sys2Proof.Machine
end

section
/-! The document's six properties (70_reset_and_hazards.md R132), each from what a call of the document answers. What links the
calls is a record that stands in the store (`State.Holds`): a write makes one, and a read, or a write elsewhere, keeps it. -/

namespace Sys2Proof.Machine

variable {s t u : State} {m m' : Memory} {a b n i x j : Nat} {p q dest : List Byte} {r : ResponseWord}

/-! ## Records and single changes (R127, R132) -/

/-- Two stores that agree on a record's cells agree on its validity. -/
theorem validRecord_of_agree (h : ∀ x, InRecord a n x → Memory.read m' x = Memory.read m x) (hv : ValidRecord m a n) :
    ValidRecord m' a n := by
  have hpayload : payloadOf m' a n = payloadOf m a n := payloadOf_congr fun i hi => h (a + 1 + i) (by omega)
  rw [ValidRecord, hpayload, h a (by omega), h (a + n + 1) (by omega)]
  exact hv

/-- One changed payload byte changes the checksum: the step that takes the byte is injective in it, and the later steps are
injective in the accumulator (R71 (c)). -/
theorem crc8_payloadOf_ne (hi : i < n) (hne : Memory.read m' (a + 1 + i) ≠ Memory.read m (a + 1 + i))
    (hsame : ∀ c ≠ a + 1 + i, Memory.read m' c = Memory.read m c) :
    crc8 (payloadOf m' a n) ≠ crc8 (payloadOf m a n) := by
  induction n with
  | zero => exact absurd hi (Nat.not_lt_zero i)
  | succ n ih =>
    rw [crc8_payloadOf_succ, crc8_payloadOf_succ]
    obtain hlt | rfl := Nat.lt_succ_iff_lt_or_eq.mp hi
    · rw [hsame (a + 1 + n) (by omega)]
      exact (crc8Update_bijective_left _).injective.ne (ih hlt)
    · have hbefore : payloadOf m' a i = payloadOf m a i := payloadOf_congr fun k hk => hsame _ (by omega)
      rw [hbefore]
      exact (crc8Update_bijective_right _).injective.ne hne

/-- A valid record is not valid with any one of its cells changed. -/
theorem not_validRecord_of_one_changed (hv : ValidRecord m a n) (hx : InRecord a n x)
    (hne : Memory.read m' x ≠ Memory.read m x) (hsame : ∀ c ≠ x, Memory.read m' c = Memory.read m c) :
    ¬ValidRecord m' a n := by
  rintro ⟨hlead', htrail'⟩
  obtain ⟨hlead, htrail⟩ := hv
  by_cases hguard : x = a ∨ x = a + n + 1
  · have hpayload : payloadOf m' a n = payloadOf m a n := payloadOf_congr fun i hi => hsame _ (by omega)
    rw [hpayload] at hlead' htrail'
    obtain rfl | rfl := hguard
    · exact hne (hlead'.trans hlead.symm)
    · exact hne (htrail'.trans htrail.symm)
  · obtain ⟨i, hi, rfl⟩ : ∃ i < n, x = a + 1 + i := ⟨x - (a + 1), by omega, by omega⟩
    refine crc8_payloadOf_ne hi hne hsame ?_
    rw [← hlead', ← hlead, hsame a (by omega)]

theorem xor_bit_ne (hj : j < 8) (b : Byte) : b ^^^ 1#8 <<< j ≠ b := by
  have hbit : ∀ j < 8, 1#8 <<< j ≠ 0#8 := by decide
  exact fun h => hbit j hj (by simpa using h)

theorem flipBit_not_valid (hwf : Memory.wf s.store = true) (hv : ValidRecord s.store a n) (hx : InRecord a n x)
    (hj : j < 8) : ¬ValidRecord (s.flipBit x j).store a n := by
  refine not_validRecord_of_one_changed hv hx ?_ fun c hc => flipBit_read_other hc j
  rw [flipBit_read_same hwf]
  exact xor_bit_ne hj _

/-! ## The call of an RDREC -/

theorem documentRead_legal (dest : List Byte) (hq : s.Quiet) (hl : legalOperands s.params.widths a n = true)
    {k : Nat} (hrun : BusyRun k ((s.putDst dest).accept a n .rFold) u) (hk : k ≤ 2 * s.params.storeSize + 8)
    (hu : u.phase = .idle) (hr : u.responses = s.responses ++ [r]) : documentRead dest n a s = .next (u, some r) := by
  obtain ⟨ha, hn⟩ := legal_operands_fit hl
  rw [documentRead_idle hq.1 dest (fitsRow_of_legalOperands hl).2]
  exact callCommand_of_busyRun (s := s.putDst dest) hq (decode_wordOf_three hn ha)
    (exec_rdrec_legal (s := s.putDst dest) hq.1 hl) hrun hk hu hr

/-- A read of a record that is not valid (R95), whatever room the destination has. -/
theorem documentRead_invalid (dest : List Byte) (hq : s.Quiet) (hl : legalOperands s.params.widths a n = true)
    (hf : s.RecordFits a n) (hv : ¬ValidRecord s.store a n) :
    ∃ u, documentRead dest n a s = .next (u, some 0x0100#16) ∧ u.store = s.store ∧ u.dst = dest := by
  obtain ⟨k, checks, hk, hrun⟩ := busyRun_rdrec_invalid (s := s.putDst dest) hq hl hf hv
  exact ⟨_, documentRead_legal dest hq hl hrun (by omega) rfl rfl, rfl, rfl⟩

/-- A read of a valid record (R95). -/
theorem documentRead_valid (hq : s.Quiet) (hl : legalOperands s.params.widths a n = true) (hf : s.RecordFits a n)
    (hv : ValidRecord s.store a n) (hroom : n ≤ dest.length) :
    documentRead dest n a s = .next (rdrecCopyState (s.putDst dest) a n n, some 0x0000#16) := by
  have hrun := busyRun_rdrec_copy (s := s.putDst dest) hq hl hf hv hroom (Nat.le_refl n)
  exact documentRead_legal dest hq hl hrun (by omega) (if_pos rfl) (if_pos rfl)

/-! ## A record that stands -/

/-- The valid record of payload `p` stands at `a`, before a core that is ready for a call on it. -/
def State.Holds (s : State) (a : Nat) (p : List Byte) : Prop :=
  s.ReadyFor a p.length ∧ ValidRecord s.store a p.length ∧ payloadOf s.store a p.length = p

theorem recordStored_wf (h : Memory.wf m = true) (a : Nat) (p : List Byte) : Memory.wf (recordStored m a p) = true :=
  write_wf (write_wf (payloadStored_wf (write_wf h _ _) _ _) _ _) _ _

/-- A successful write makes its record, and the core is then as ready for any other call as it was. -/
theorem documentWrite_holds (hr : s.ReadyFor a p.length) :
    ∃ t, documentWrite p p.length a s = .next (t, some 0x0000#16) ∧ t.store = recordStored s.store a p ∧ t.Holds a p ∧
      ∀ b n, s.ReadyFor b n → t.ReadyFor b n := by
  have ⟨_, hwfs, _, _⟩ := hr
  have hstore : (wrrecDoneState (s.putSrc p) a p.length).store = recordStored s.store a p :=
    congrArg (recordStored s.store a) (List.take_length (l := p))
  have hready : ∀ b n, s.ReadyFor b n → (wrrecDoneState (s.putSrc p) a p.length).ReadyFor b n := by
    rintro b n ⟨hq, hwf, hl, hf⟩
    exact ⟨⟨rfl, hq.2⟩, hstore ▸ recordStored_wf hwf a p, hl, hf⟩
  refine ⟨_, documentWrite_ready hr, hstore, ⟨hready a _ hr, ?_, ?_⟩, hready⟩
  · exact hstore ▸ recordStored_valid hwfs a p
  · exact hstore ▸ payloadOf_recordStored hwfs a p

/-- A write elsewhere keeps a record (R127). -/
theorem State.Holds.of_store_recordStored (h : s.Holds b q) (ht : t.ReadyFor b q.length)
    (hstore : t.store = recordStored s.store a p) (hd : RecordsDisjoint b q.length a p.length) : t.Holds b q := by
  obtain ⟨-, hv, hpayload⟩ := h
  have hcells : ∀ x, InRecord b q.length x → Memory.read t.store x = Memory.read s.store x := fun x hx => by
    rw [hstore]
    exact read_recordStored_outside (by omega)
  refine ⟨ht, validRecord_of_agree hcells hv, Eq.trans (payloadOf_congr fun i hi => ?_) hpayload⟩
  exact hcells (b + 1 + i) (by omega)

/-- A read of a record that stands yields its payload, and leaves every record as it was. -/
theorem documentRead_holds (h : s.Holds a p) (hroom : p.length ≤ dest.length) :
    ∃ u, documentRead dest p.length a s = .next (u, some 0x0000#16) ∧ u.dst = p ++ dest.drop p.length ∧
      u.store = s.store ∧ ∀ b q, s.Holds b q → u.Holds b q := by
  obtain ⟨⟨hq, -, hl, hf⟩, hv, hpayload⟩ := h
  refine ⟨_, documentRead_valid hq hl hf hv hroom, congrArg (· ++ dest.drop p.length) hpayload, rfl, ?_⟩
  rintro b q ⟨⟨-, hwf, hlq, hfq⟩, hvq, hpq⟩
  exact ⟨⟨⟨if_pos rfl, hq.2⟩, hwf, hlq, hfq⟩, hvq, hpq⟩

/-- After one bit of a record that stands is flipped, its read fails. -/
theorem documentRead_flipBit (dest : List Byte) (h : s.Holds a p) (hx : InRecord a p.length x) (hj : j < 8) :
    ∃ u, documentRead dest p.length a (s.flipBit x j) = .next (u, some 0x0100#16) ∧
      u.store = (s.flipBit x j).store ∧ u.dst = dest := by
  obtain ⟨⟨hq, hwf, hl, hf⟩, hv, -⟩ := h
  exact documentRead_invalid (s := s.flipBit x j) dest hq hl hf (flipBit_not_valid hwf hv hx hj)

/-! ## The destination of a read that fails (R96) -/

/-- How far an RDREC accepted in `s` has come: the destination is as it was, or both guards have matched and no answer but `OK`
can come. -/
inductive ReadProgress (s t : State) : Prop where
  | verifying (phase : t.phase = .rFold ∨ t.phase = .rLead ∨ t.phase = .rTrail) (responses : t.responses = s.responses)
      (dst : t.dst = s.dst)
  | copying (phase : t.phase = .rCopy) (responses : t.responses = s.responses)
  | failed (phase : t.phase = .idle) (dst : t.dst = s.dst)
  | succeeded (phase : t.phase = .idle) (responses : t.responses = s.responses ++ [0x0000#16])

theorem microStep_readProgress (hb : t.phase ≠ .idle) (h : ReadProgress s t) (hs : microStep t = .next u) :
    u.powerCuts = t.powerCuts ∧ ReadProgress s u := by
  cases h with
  | verifying hp hr hd =>
    obtain hp | hp | hp := hp <;> rw [microStep, hp] at hs
    · obtain ⟨-, rfl⟩ := microRFold_next hs
      refine ⟨rfl, .verifying ?_ hr hd⟩
      by_cases hlast : t.idx + 1 = t.size
      · exact .inr (.inl (if_pos hlast))
      · exact .inl (if_neg hlast)
    · obtain ⟨-, ⟨-, rfl⟩ | ⟨-, rfl⟩⟩ := microRLead_next hs
      · exact ⟨rfl, .verifying (.inr (.inr rfl)) hr hd⟩
      · exact ⟨rfl, .failed rfl hd⟩
    · obtain ⟨-, ⟨-, rfl⟩ | ⟨-, rfl⟩⟩ := microRTrail_next hs
      · exact ⟨rfl, .copying rfl hr⟩
      · exact ⟨rfl, .failed rfl hd⟩
  | copying hp hr =>
    rw [microStep, hp] at hs
    obtain ⟨-, -, rfl⟩ := microRCopy_next hs
    refine ⟨rfl, ?_⟩
    by_cases hlast : t.idx + 1 = t.size
    · refine .succeeded (if_pos hlast) ?_
      rw [← responseWord_ok_zero, ← hr]
      exact if_pos hlast
    · exact .copying ((if_neg hlast).trans hp) ((if_neg hlast).trans hr)
  | failed hp => exact absurd hp hb
  | succeeded hp => exact absurd hp hb

theorem exec_rdrec_readProgress (h : s.phase = .idle) (a n : Nat) :
    ∃ t, exec (.rdrec a n) s = .next t ∧ t.powerCuts = s.powerCuts ∧ ReadProgress s t := by
  cases hl : legalOperands s.params.widths a n with
  | true => exact ⟨_, exec_rdrec_legal h hl, rfl, .verifying (.inl rfl) rfl rfl⟩
  | false => exact ⟨_, exec_rdrec_illegal h hl, rfl, .failed h rfl⟩

theorem finishCommand_readProgress (hc : t.powerCuts = []) (h : ReadProgress s t) (hu : finishCommand t = .next u) :
    ReadProgress s u := by
  have hstep : ∀ v w : State, v.phase ≠ .idle → v.powerCuts = [] ∧ ReadProgress s v → step v = .next w →
      w.powerCuts = [] ∧ ReadProgress s w := by
    rintro v w hb ⟨hcv, hv⟩ hw
    rw [step_busy_no_cuts hcv hb] at hw
    obtain ⟨hcw, hw⟩ := microStep_readProgress hb hv hw
    exact ⟨hcw.trans hcv, hw⟩
  obtain ⟨-, hprogress⟩ := stepUntilIdle_keeps hstep ⟨hc, h⟩ hu
  exact hprogress

/-- A response that is not `OK` comes from a command that has written nothing to the destination. -/
theorem ReadProgress.dst_eq (h : ReadProgress s u) (hr : newResponse s u = some r)
    (hne : responseStatus r ≠ Status.code .ok) : u.dst = s.dst := by
  cases h with
  | verifying _ _ hd => exact hd
  | copying _ hresp => exact absurd ((newResponse_of_eq hresp).symm.trans hr) (by simp)
  | failed _ hd => exact hd
  | succeeded _ hresp =>
    obtain rfl : 0x0000#16 = r := Option.some.inj ((newResponse_of_append hresp).symm.trans hr)
    exact absurd (by decide) hne

/-! ## The six properties -/

theorem documentRoundTrip : DocumentRoundTrip := by
  intro s p dest a hr hroom
  obtain ⟨t, hwrite, -, hholds, -⟩ := documentWrite_holds hr
  obtain ⟨u, hread, hdst, -, -⟩ := documentRead_holds hholds hroom
  exact ⟨t, u, hwrite, hread, hdst⟩

theorem documentTornWriteDetection : DocumentTornWriteDetection := by
  intro s t p dest a x j hr hwrite hx hj
  obtain ⟨t', hwrite', -, hholds, -⟩ := documentWrite_holds hr
  obtain ⟨rfl, -⟩ := Prod.mk.inj (Host.Outcome.next.inj (hwrite'.symm.trans hwrite))
  obtain ⟨u, hread, -, -⟩ := documentRead_flipBit dest hholds hx hj
  exact ⟨u, hread⟩

theorem documentNoPartialExposure : DocumentNoPartialExposure := by
  intro s u dest n a r hq h hne
  obtain ⟨hfits, -⟩ := ifOperandsFit_some h
  have hfield : a < 2 ^ s.params.widths.aw ∧ n < 2 ^ s.params.widths.sw := by simpa [Instr.fitsRow] using hfits
  obtain ⟨t, hexec, hc, hprogress⟩ := exec_rdrec_readProgress (s := s.putDst dest) hq.1 a n
  rw [documentRead_idle hq.1 dest hfits,
    callCommand_quiet (s := s.putDst dest) (i := .rdrec a n) hq (decode_wordOf_three hfield.2 hfield.1) hexec] at h
  obtain ⟨v, hfinish, hv⟩ := afterRun_eq_next.mp h
  obtain ⟨rfl, hresp⟩ := Prod.mk.inj (Host.Outcome.next.inj hv)
  exact (finishCommand_readProgress (hc.trans hq.2) hprogress hfinish).dst_eq hresp hne

/-- The first of two reads leaves the second record as it stands. -/
theorem documentRead_twice {dest' : List Byte} (hp : s.Holds a p) (hq : s.Holds b q) (hroom : p.length ≤ dest.length)
    (hroom' : q.length ≤ dest'.length) :
    ∃ v w, documentRead dest p.length a s = .next (v, some 0x0000#16) ∧ v.dst = p ++ dest.drop p.length ∧
      documentRead dest' q.length b v = .next (w, some 0x0000#16) ∧ w.dst = q ++ dest'.drop q.length := by
  obtain ⟨v, hread, hdst, -, hkeeps⟩ := documentRead_holds hp hroom
  obtain ⟨w, hread', hdst', -, -⟩ := documentRead_holds (hkeeps b q hq) hroom'
  exact ⟨v, w, hread, hdst, hread', hdst'⟩

theorem documentRecordsAreIndependent : DocumentRecordsAreIndependent := by
  intro s p q dest dest' a b hrp hrq hdisjoint hroom hroom'
  obtain ⟨t, hwrite, -, hholds, hready⟩ := documentWrite_holds hrp
  obtain ⟨u, hwrite', hstore, hq, hready'⟩ := documentWrite_holds (hready b _ hrq)
  have hp : u.Holds a p := hholds.of_store_recordStored (hready' a _ (hready a _ hrp)) hstore hdisjoint
  exact ⟨t, u, hwrite, hwrite', documentRead_twice hp hq hroom hroom', documentRead_twice hq hp hroom' hroom⟩

/-- P1's record: `CRC8([1, 2, 3]) = 0xD8` and its complement around the payload. -/
theorem State.Holds.scenario_cells (h : s.Holds 10 [0x01, 0x02, 0x03]) :
    (List.range 5).map (fun i => Memory.read s.store (10 + i)) = [0xD8, 0x01, 0x02, 0x03, 0x27] := by
  obtain ⟨-, ⟨hlead, htrail⟩, hpayload⟩ := h
  obtain ⟨-, -, -, -, hcrc⟩ := crcFoldLeftToRight
  rw [hpayload] at hlead htrail
  calc (List.range 5).map (fun i => Memory.read s.store (10 + i))
      = Memory.read s.store 10 :: (payloadOf s.store 10 3 ++ [Memory.read s.store 14]) := rfl
    _ = crc8 [0x01, 0x02, 0x03] :: ([0x01, 0x02, 0x03] ++ [~~~(crc8 [0x01, 0x02, 0x03])]) :=
        congrArg₂ _ hlead (congrArg₂ _ hpayload (congrArg (fun v => [v]) htrail))
    _ = [0xD8, 0x01, 0x02, 0x03, 0x27] := by
      rw [hcrc]
      rfl

theorem documentConcreteScenario : DocumentConcreteScenario := by
  intro s hr
  obtain ⟨t, hwrite, -, hholds, -⟩ := documentWrite_holds (p := [0x01, 0x02, 0x03]) hr
  obtain ⟨u, hread, hdst, -, hkeeps⟩ := documentRead_holds (dest := [0xEE, 0xEE, 0xEE]) hholds (Nat.le_refl 3)
  have hholds' := hkeeps 10 _ hholds
  refine ⟨t, u, hwrite, hholds.scenario_cells, hread, hdst, fun j hj => ?_⟩
  obtain ⟨v, hfail, hstore, hdst'⟩ := documentRead_flipBit [0xEE, 0xEE, 0xEE] hholds' (x := 10) (by decide) hj
  obtain ⟨-, -, hpayload⟩ := hholds'
  refine ⟨v, hfail, ?_, hdst'⟩
  rw [hstore]
  exact (payloadOf_write_outside (.inl (Nat.le_refl 10)) _).trans hpayload

/-- Settles O57: the six properties, of calls on a record that stands. -/
theorem documentPropertiesHold : Obligations.DocumentPropertiesHold :=
  ⟨documentRoundTrip, documentTornWriteDetection, documentNoPartialExposure, documentFoldIsDeterministic,
    documentRecordsAreIndependent, documentConcreteScenario⟩

end Sys2Proof.Machine
end

section
/-! The command word and its command, both ways (30_encoding.md R50 to R57), on machines of any legal widths, and the opcode map of
the default widths. The obstacle is the CRCUPD row, which is of another format than the record rows: the words with `op = 01`
are `2^(SW+AW)` and a remainder, and the `zero` field is what the remainder has above its two low bytes. -/

namespace Sys2Proof

variable {W : Widths} {cmd : Nat}

/-! ## The four rows as ranges of words (R53) -/

theorem opField_eq_iff (hcmd : cmd < 2 ^ W.cw) (op : Nat) :
    opField W cmd = op ↔ op * 2 ^ (W.sw + W.aw) ≤ cmd ∧ cmd < (op + 1) * 2 ^ (W.sw + W.aw) := by
  rw [opField_eq_div hcmd, Nat.div_eq_iff (Nat.two_pow_pos _), Nat.add_mul]
  have := Nat.two_pow_pos (W.sw + W.aw)
  omega

/-- The `zero` field of a word with `op = 01` is the part above the two bytes of what the word exceeds the first such word by. -/
theorem zeroField_of_op_one (hW : W.Legal) (hcmd : cmd < 2 ^ W.cw) (hop : opField W cmd = 1) :
    zeroField W cmd = (cmd - 2 ^ (W.sw + W.aw)) / 2 ^ 16 := by
  obtain ⟨hlo, hhi⟩ := (opField_eq_iff hcmd 1).mp hop
  obtain ⟨r, rfl⟩ := Nat.exists_eq_add_of_le (Nat.one_mul _ ▸ hlo)
  have hr : r / 2 ^ 16 < 2 ^ (W.sw + W.aw - 16) := by
    refine Nat.div_lt_of_lt_mul ?_
    rw [pow_zeroField hW]
    omega
  rw [zeroField, Nat.add_sub_cancel_left]
  nth_rw 1 [← pow_zeroField hW]
  rw [Nat.mul_add_div (Nat.two_pow_pos 16), Nat.add_mod_left, Nat.mod_eq_of_lt hr]

/-! ## Decode after encode -/

/-- A reserved word that fits its row decodes to itself: it has `op = 00`, or `op = 01` and a `zero` field that is not 0 (R53). -/
theorem decode_reserved_word {w : Nat} (hW : W.Legal) (h : Instr.fitsRow W (.reserved w) = true) :
    decode W w = .reserved w ∧ w < 2 ^ W.cw := by
  have hfit : w < 2 ^ (W.sw + W.aw) ∨ (2 ^ (W.sw + W.aw) + 2 ^ 16 ≤ w ∧ w < 2 * 2 ^ (W.sw + W.aw)) := by
    simpa only [Instr.fitsRow, Bool.or_eq_true, Bool.and_eq_true, decide_eq_true_eq] using h
  have hw : w < 2 ^ W.cw := by
    rw [pow_cw]
    omega
  refine ⟨?_, hw⟩
  obtain hlow | ⟨hlo, hhi⟩ := hfit
  · rw [decode_op_zero ((opField_eq_iff hw 0).mpr (by omega)), Nat.mod_eq_of_lt hw]
  · have hop : opField W w = 1 := (opField_eq_iff hw 1).mpr (by omega)
    have hzero : zeroField W w ≠ 0 := by
      rw [zeroField_of_op_one hW hw hop]
      omega
    rw [decode_op_one_reserved hop hzero, Nat.mod_eq_of_lt hw]

theorem encode_crcupd_lt (hW : W.Legal) (acc data : Byte) : encode W (.crcupd acc data) < 2 ^ W.cw := by
  have hacc := acc.isLt
  have hdata := data.isLt
  have hbytes := two_bytes_fit hW
  rw [encode, pow_cw]
  omega

theorem fitsRow_record_iff {a n : Nat} :
    (Instr.fitsRow W (.wrrec a n) = true ↔ a < 2 ^ W.aw ∧ n < 2 ^ W.sw) ∧
      (Instr.fitsRow W (.rdrec a n) = true ↔ a < 2 ^ W.aw ∧ n < 2 ^ W.sw) := by
  simp [Instr.fitsRow]

/-- Settles O1: a row at a time, since each row has its own way from operands to word. -/
theorem decodeEncodeAgree : Obligations.DecodeEncodeAgree := by
  intro W i hW hfit
  cases i with
  | crcupd acc data => exact ⟨decode_encode_crcupd hW acc data, encode_crcupd_lt hW acc data⟩
  | wrrec a n =>
    obtain ⟨ha, hn⟩ := fitsRow_record_iff.1.mp hfit
    exact ⟨decode_wordOf_two hn ha, wordOf_lt (by decide) hn ha⟩
  | rdrec a n =>
    obtain ⟨ha, hn⟩ := fitsRow_record_iff.2.mp hfit
    exact ⟨decode_wordOf_three hn ha, wordOf_lt (by decide) hn ha⟩
  | reserved w => exact decode_reserved_word hW hfit

/-! ## Encode after decode -/

/-- A word of the CRCUPD row is its first word and two bytes (R52). -/
theorem encode_crcupd_fields (hW : W.Legal) (hcmd : cmd < 2 ^ W.cw) (hop : opField W cmd = 1)
    (hzero : zeroField W cmd = 0) : encode W (.crcupd (accField cmd) (dataField cmd)) = cmd := by
  obtain ⟨hlo, hhi⟩ := (opField_eq_iff hcmd 1).mp hop
  have hrest : (cmd - 2 ^ (W.sw + W.aw)) / 2 ^ 16 = 0 := (zeroField_of_op_one hW hcmd hop).symm.trans hzero
  have hdvd : 2 ^ 16 ∣ 2 ^ (W.sw + W.aw) := ⟨_, (pow_zeroField hW).symm⟩
  rw [encode, accField, dataField, BitVec.toNat_ofNat, BitVec.toNat_ofNat]
  omega

/-- A word that matches no row is of the reserved row (R53). -/
theorem fitsRow_reserved (hW : W.Legal) (hcmd : cmd < 2 ^ W.cw)
    (h : opField W cmd = 0 ∨ opField W cmd = 1 ∧ zeroField W cmd ≠ 0) : Instr.fitsRow W (.reserved cmd) = true := by
  simp only [Instr.fitsRow, Bool.or_eq_true, Bool.and_eq_true, decide_eq_true_eq]
  obtain hop | ⟨hop, hzero⟩ := h
  · have := (opField_eq_iff hcmd 0).mp hop
    omega
  · have := (opField_eq_iff hcmd 1).mp hop
    rw [zeroField_of_op_one hW hcmd hop] at hzero
    omega

/-- Settles O2: the `op` field, and for `op = 01` the `zero` field, say which row's word it is. -/
theorem everyWordIsTheWordOfItsCommand : Obligations.EveryWordIsTheWordOfItsCommand := by
  intro W cmd hW hcmd
  have hlt := opField_lt W cmd
  have hword := wordOf_fields hcmd
  have hfields : addrField W cmd < 2 ^ W.aw ∧ sizeField W cmd < 2 ^ W.sw := ⟨addrField_lt W cmd, sizeField_lt W cmd⟩
  obtain hop | hop | hop | hop : opField W cmd = 0 ∨ opField W cmd = 1 ∨ opField W cmd = 2 ∨ opField W cmd = 3 := by
    omega
  · rw [decode_op_zero hop, Nat.mod_eq_of_lt hcmd]
    exact ⟨rfl, fitsRow_reserved hW hcmd (.inl hop)⟩
  · by_cases hzero : zeroField W cmd = 0
    · rw [decode_op_one_crcupd hop hzero]
      exact ⟨encode_crcupd_fields hW hcmd hop hzero, rfl⟩
    · rw [decode_op_one_reserved hop hzero, Nat.mod_eq_of_lt hcmd]
      exact ⟨rfl, fitsRow_reserved hW hcmd (.inr ⟨hop, hzero⟩)⟩
  · rw [hop] at hword
    rw [decode_op_two hop]
    exact ⟨hword, fitsRow_record_iff.1.mpr hfields⟩
  · rw [hop] at hword
    rw [decode_op_three hop]
    exact ⟨hword, fitsRow_record_iff.2.mpr hfields⟩

/-! ## Legality of one row's words (R56) -/

theorem legal_op_one_iff (h : opField W cmd = 1) : legal W cmd = true ↔ zeroField W cmd = 0 := by
  simp [legal, h]

theorem legal_record_iff (h : opField W cmd = 2 ∨ opField W cmd = 3) :
    legal W cmd = true ↔ 1 ≤ sizeField W cmd ∧ addrField W cmd + sizeField W cmd + 1 ≤ W.lastAddress := by
  obtain h | h := h <;> simp [legal, h]

/-! ## The default widths, by bit positions and by mask and match (R51, R52, R53) -/

theorem opField_defaultInstance (w : BitVec 32) : opField .defaultInstance w.toNat = w.toNat / 2 ^ 30 :=
  opField_eq_div w.isLt

theorem opField_eq_of_mask {w v : BitVec 32} (h : w &&& 0xC0000000#32 = v) :
    opField .defaultInstance w.toNat = v.toNat / 2 ^ 30 := by
  rw [← h, and_opMask_toNat, Nat.mul_div_cancel _ (Nat.two_pow_pos 30), opField_defaultInstance]

/-- The CRCUPD match is `op = 01` with a zero `zero` field (R53). -/
theorem upperMask_eq_crcupd_iff (w : BitVec 32) :
    w &&& 0xFFFF0000#32 = 0x40000000#32 ↔
      opField .defaultInstance w.toNat = 1 ∧ zeroField .defaultInstance w.toNat = 0 := by
  have hw := w.isLt
  rw [opField_defaultInstance, zeroField, defaultInstance_sw, defaultInstance_aw, ← BitVec.toNat_inj, and_upperMask_toNat,
    BitVec.toNat_ofNat]
  omega

theorem mod_cw_defaultInstance (w : BitVec 32) : w.toNat % 2 ^ Widths.defaultInstance.cw = w.toNat :=
  Nat.mod_eq_of_lt w.isLt

theorem addrField_defaultInstance (w : BitVec 32) : addrField .defaultInstance w.toNat = (w.setWidth 16).toNat := by
  simp [addrField]

theorem sizeField_defaultInstance (w : BitVec 32) :
    sizeField .defaultInstance w.toNat = (w >>> 16 |>.setWidth 14).toNat := by
  simp [sizeField, Nat.shiftRight_eq_div_pow]

theorem accField_defaultInstance (w : BitVec 32) : accField w.toNat = (w >>> 8 |>.setWidth 8) := by
  apply BitVec.eq_of_toNat_eq
  simp [accField, Nat.shiftRight_eq_div_pow]

theorem dataField_defaultInstance (w : BitVec 32) : dataField w.toNat = w.setWidth 8 := by
  apply BitVec.eq_of_toNat_eq
  simp [dataField]

/-- Settles O3: each mask and match says what the `op` field is, and the row's fields are the word's bits. -/
theorem opcodeMapByMaskAndMatch : Obligations.OpcodeMapByMaskAndMatch := by
  intro w
  refine ⟨fun h => ?_, fun h => ?_, fun h hne => ?_, fun h => ?_, fun h => ?_, by decide⟩
  · have hop : opField .defaultInstance w.toNat = 0 := opField_eq_of_mask h
    rw [decode_op_zero hop, mod_cw_defaultInstance]
    exact ⟨rfl, (legal_eq_false_iff _ _).mpr (.inl hop)⟩
  · obtain ⟨hop, hzero⟩ := (upperMask_eq_crcupd_iff w).mp h
    rw [decode_op_one_crcupd hop hzero, accField_defaultInstance, dataField_defaultInstance]
    exact ⟨rfl, (legal_op_one_iff hop).mpr hzero⟩
  · have hop : opField .defaultInstance w.toNat = 1 := opField_eq_of_mask h
    have hzero : zeroField .defaultInstance w.toNat ≠ 0 := fun hz => hne ((upperMask_eq_crcupd_iff w).mpr ⟨hop, hz⟩)
    rw [decode_op_one_reserved hop hzero, mod_cw_defaultInstance]
    exact ⟨rfl, (legal_eq_false_iff _ _).mpr (.inr (.inl ⟨hop, hzero⟩))⟩
  · have hop : opField .defaultInstance w.toNat = 2 := opField_eq_of_mask h
    rw [decode_op_two hop, legal_record_iff (.inl hop), addrField_defaultInstance, sizeField_defaultInstance]
    exact ⟨rfl, Iff.rfl⟩
  · have hop : opField .defaultInstance w.toNat = 3 := opField_eq_of_mask h
    rw [decode_op_three hop, legal_record_iff (.inr hop), addrField_defaultInstance, sizeField_defaultInstance]
    exact ⟨rfl, Iff.rfl⟩

/-- Settles O6: `wordOf_fields` and the decoder's rows, with the encoder's arithmetic written out; then the fields of 32 bits. -/
theorem generalEncodingAndDefaultInstance : Obligations.GeneralEncodingAndDefaultInstance := by
  refine ⟨fun W cmd _ hcmd => ⟨opField_lt W cmd, sizeField_lt W cmd, addrField_lt W cmd, wordOf_fields hcmd⟩,
    fun W size addr hs ha => ⟨decode_wordOf_two hs ha, decode_wordOf_three hs ha⟩,
    fun W acc data hW => decode_encode_crcupd hW acc data, fun w => ?_⟩
  refine ⟨?_, ?_, ?_, ?_, ?_, ?_⟩
  · simp [opField, Nat.shiftRight_eq_div_pow]
  · simp [sizeField, Nat.shiftRight_eq_div_pow]
  · simp [addrField]
  · simp [zeroField, Nat.shiftRight_eq_div_pow]
  · simp [accField, BitVec.extractLsb', Nat.shiftRight_eq_div_pow]
  · simp [dataField, BitVec.extractLsb']

/-- Settles O5: four words of the vectors, evaluated. -/
theorem writtenOutWordsDecode : Obligations.WrittenOutWordsDecode :=
  ⟨by decide, by decide, by decide, by decide⟩

end Sys2Proof
end

section
/-! What one step can do, told once: the effect of a micro-step on every part of the state that is not the record in progress
(10_state.md R17), of a power loss (60_exceptions.md R106) and of an idle core's step (10_state.md R18). The whole-machine rules are
read off these. -/

namespace Sys2Proof.Machine

variable {s t : State} {i : Instr} {torn : Option Byte} {cs : List PowerCut}

/-! ## The effect of a micro-step (R17) -/

/-- R17's bounds on the accesses of one micro-step. -/
def OneStoreAccess (new : List Access) : Prop :=
  (new.filter Access.isStore).length = 1 ∧ (new.filter fun a => !a.isStore).length ≤ 1

/-- What every micro-step keeps (`frame`), and how the rest can change: by accesses within R17's bounds, by at most one response,
with which the command ends, in the one store cell being written, and in DST while R_COPY copies. -/
structure MicroEffect (s t : State) : Prop where
  frame : t = { s with
    phase := t.phase, acc := t.acc, idx := t.idx, tmp := t.tmp, store := t.store, dst := t.dst,
    responses := t.responses, history := t.history }
  accesses : ∃ new, t.history = s.history ++ new ∧ OneStoreAccess new
  responses : (t.phase ≠ .idle ∧ t.responses = s.responses) ∨
    (t.phase = .idle ∧ ∃ st, st ≠ .illegal ∧ t.responses = s.responses ++ [responseWord st 0])
  idx : t.idx ≤ s.idx ∨ ((s.phase = .wPayload ∨ s.phase = .rFold ∨ s.phase = .rCopy) ∧ t.idx = s.idx + 1)
  store : t.store = s.store ∨
    ∃ x b, s.cellBeingWritten = some x ∧ x < s.params.storeSize ∧ t.store = Memory.write s.store x b
  dst : t.dst = s.dst ∨ (s.phase = .rCopy ∧
    (t.responses = s.responses ∨ t.responses = s.responses ++ [responseWord .ok 0]))
  copy : t.phase = .rCopy → s.phase = .rCopy ∨
    (s.phase = .rTrail ∧ Memory.read s.store (s.addr + s.size + 1) = ~~~s.acc)
  place : t.phase = .wPlace → s.phase = .wRdold

/-- Each phase's micro-step, by the one next state it answers. -/
theorem microStep_effect (hb : s.phase ≠ .idle) (h : microStep s = .next t) : MicroEffect s t := by
  rw [microStep] at h
  cases hp : s.phase <;> simp only [hp] at h
  case idle => exact absurd hp hb
  case wRdold =>
    obtain ⟨-, rfl⟩ := microWRdold_next h
    exact ⟨rfl, ⟨_, rfl, rfl, Nat.zero_le _⟩, .inl ⟨nofun, rfl⟩, .inl (Nat.le_refl _), .inl rfl, .inl rfl, nofun,
      fun _ => hp⟩
  case wPlace =>
    obtain ⟨hx, rfl⟩ := microWPlace_next h
    have hcell : s.cellBeingWritten = some (trailAddr s.addr s.size) := by rw [State.cellBeingWritten, hp]
    exact ⟨rfl, ⟨_, rfl, rfl, Nat.zero_le _⟩, .inl ⟨nofun, rfl⟩, .inl (Nat.le_refl _), .inr ⟨_, _, hcell, hx, rfl⟩, .inl rfl,
      nofun, nofun⟩
  case wPayload =>
    obtain ⟨b, -, hx, rfl⟩ := microWPayload_next h
    have hcell : s.cellBeingWritten = some (payloadAddr s.addr s.idx) := by rw [State.cellBeingWritten, hp]
    refine ⟨rfl, ⟨_, rfl, rfl, Nat.le_refl 1⟩, .inl ⟨?_, rfl⟩, .inr ⟨.inl hp, rfl⟩, .inr ⟨_, _, hcell, hx, rfl⟩, .inl rfl, ?_, ?_⟩
      <;> dsimp only <;> split <;> nofun
  case wLead =>
    obtain ⟨hx, rfl⟩ := microWLead_next h
    have hcell : s.cellBeingWritten = some (leadAddr s.addr) := by rw [State.cellBeingWritten, hp]
    exact ⟨rfl, ⟨_, rfl, rfl, Nat.zero_le _⟩, .inl ⟨nofun, rfl⟩, .inl (Nat.le_refl _), .inr ⟨_, _, hcell, hx, rfl⟩, .inl rfl,
      nofun, nofun⟩
  case wTrail =>
    obtain ⟨hx, rfl⟩ := microWTrail_next h
    have hcell : s.cellBeingWritten = some (trailAddr s.addr s.size) := by rw [State.cellBeingWritten, hp]
    exact ⟨rfl, ⟨_, rfl, rfl, Nat.zero_le _⟩, .inr ⟨rfl, .ok, nofun, rfl⟩, .inl (Nat.le_refl _),
      .inr ⟨_, _, hcell, hx, rfl⟩, .inl rfl, nofun, nofun⟩
  case rFold =>
    obtain ⟨-, rfl⟩ := microRFold_next h
    refine ⟨rfl, ⟨_, rfl, rfl, Nat.zero_le _⟩, .inl ⟨?_, rfl⟩, .inr ⟨.inr (.inl hp), rfl⟩, .inl rfl, .inl rfl, ?_, ?_⟩
      <;> dsimp only <;> split <;> nofun
  case rLead =>
    obtain ⟨-, ⟨-, rfl⟩ | ⟨-, rfl⟩⟩ := microRLead_next h
    · exact ⟨rfl, ⟨_, rfl, rfl, Nat.zero_le _⟩, .inl ⟨nofun, rfl⟩, .inl (Nat.le_refl _), .inl rfl, .inl rfl, nofun, nofun⟩
    · exact ⟨rfl, ⟨_, rfl, rfl, Nat.zero_le _⟩, .inr ⟨rfl, .verifyFail, nofun, rfl⟩, .inl (Nat.le_refl _), .inl rfl,
        .inl rfl, nofun, nofun⟩
  case rTrail =>
    obtain ⟨-, ⟨hmatch, rfl⟩ | ⟨-, rfl⟩⟩ := microRTrail_next h
    · exact ⟨rfl, ⟨_, rfl, rfl, Nat.zero_le _⟩, .inl ⟨nofun, rfl⟩, .inl (Nat.zero_le _), .inl rfl, .inl rfl,
        fun _ => .inr ⟨hp, hmatch⟩, nofun⟩
    · exact ⟨rfl, ⟨_, rfl, rfl, Nat.zero_le _⟩, .inr ⟨rfl, .verifyFail, nofun, rfl⟩, .inl (Nat.le_refl _), .inl rfl,
        .inl rfl, nofun, nofun⟩
  case rCopy =>
    obtain ⟨-, -, rfl⟩ := microRCopy_next h
    refine ⟨rfl, ⟨_, rfl, rfl, Nat.le_refl 1⟩, ?_, .inr ⟨.inr (.inr hp), rfl⟩, .inl rfl, .inr ⟨hp, ?_⟩, fun _ => .inl hp, ?_⟩
      <;> dsimp only <;> split
    · exact .inr ⟨rfl, .ok, nofun, rfl⟩
    · exact .inl ⟨hb, rfl⟩
    · exact .inr rfl
    · exact .inl rfl
    · nofun
    · exact fun h => absurd (hp.symm.trans h) nofun

namespace MicroEffect

variable (h : MicroEffect s t)
include h

theorem params : t.params = s.params := (congrArg State.params h.frame :)
theorem src : t.src = s.src := (congrArg State.src h.frame :)
theorem addr : t.addr = s.addr := (congrArg State.addr h.frame :)
theorem size : t.size = s.size := (congrArg State.size h.frame :)
theorem hostMoves : t.hostMoves = s.hostMoves := (congrArg State.hostMoves h.frame :)
theorem powerCuts : t.powerCuts = s.powerCuts := (congrArg State.powerCuts h.frame :)

end MicroEffect

/-! ## The step of an idle core (R18, R57) -/

/-- What an idle core's step can be while power stays on: the host has no move, gives a buffer its bytes, or presents a word, which
the core answers at once or begins. -/
inductive IdleStep (s : State) : State → Prop where
  | waits (h : s.hostMoves = []) : IdleStep s s
  | setsSource {bs ms} (h : s.hostMoves = .setSource bs :: ms) : IdleStep s ((s.putSrc bs).putMoves ms)
  | setsDest {bs ms} (h : s.hostMoves = .setDest bs :: ms) : IdleStep s ((s.putDst bs).putMoves ms)
  | answers {w ms st r} (h : s.hostMoves = .issue w :: ms) (hr : st = .ok ∨ st = .illegal ∧ r = 0) :
    IdleStep s ((s.putMoves ms).respond st r)
  | begins {w ms a n p} (h : s.hostMoves = .issue w :: ms) (hp : p = .wRdold ∨ p = .rFold)
      (hl : legalOperands s.params.widths a n = true) : IdleStep s ((s.putMoves ms).accept a n p)

/-- The command and the widths decide whether an idle core answers it, OK or ILLEGAL with a zero result (R57, R73), or begins it. -/
theorem exec_idle_cases (W : Widths) (i : Instr) :
    (∃ st r, (st = .ok ∨ st = .illegal ∧ r = 0) ∧
      ∀ s : State, s.phase = .idle → s.params.widths = W → exec i s = .next (s.respond st r)) ∨
    ∃ a n p, (p = .wRdold ∨ p = .rFold) ∧ legalOperands W a n = true ∧
      ∀ s : State, s.phase = .idle → s.params.widths = W → exec i s = .next (s.accept a n p) := by
  cases i with
  | crcupd acc data => exact .inl ⟨_, _, .inl rfl, fun s h _ => exec_crcupd_idle h acc data⟩
  | reserved w => exact .inl ⟨_, _, .inr ⟨rfl, rfl⟩, fun s h _ => exec_reserved_idle h w⟩
  | wrrec a n =>
    cases hl : legalOperands W a n with
    | true => exact .inr ⟨a, n, _, .inl rfl, hl, fun s h hW => exec_wrrec_legal h (hW ▸ hl)⟩
    | false => exact .inl ⟨_, _, .inr ⟨rfl, rfl⟩, fun s h hW => exec_wrrec_illegal h (hW ▸ hl)⟩
  | rdrec a n =>
    cases hl : legalOperands W a n with
    | true => exact .inr ⟨a, n, _, .inr rfl, hl, fun s h hW => exec_rdrec_legal h (hW ▸ hl)⟩
    | false => exact .inl ⟨_, _, .inr ⟨rfl, rfl⟩, fun s h hW => exec_rdrec_illegal h (hW ▸ hl)⟩

/-- An idle core's powered step is never refused. -/
theorem poweredStep_idle (h : s.phase = .idle) : ∃ t, poweredStep s = .next t ∧ IdleStep s t := by
  obtain ⟨w, ms, hm, hs⟩ | ⟨bs, ms, hm, hs⟩ | ⟨bs, ms, hm, hs⟩ | ⟨hm, hs⟩ := poweredStep_idle_cases h
  · obtain ⟨st, r, hr, he⟩ | ⟨a, n, p, hp, hl, he⟩ := exec_idle_cases s.params.widths (decode s.params.widths w)
    · exact ⟨_, hs.trans (he (s.putMoves ms) h rfl), .answers hm hr⟩
    · exact ⟨_, hs.trans (he (s.putMoves ms) h rfl), .begins hm hp hl⟩
  · exact ⟨_, hs, .setsSource hm⟩
  · exact ⟨_, hs, .setsDest hm⟩
  · exact ⟨_, hs, .waits hm⟩

/-! ## The step -/

/-- Power is lost at this step. -/
abbrev State.CutNow (s : State) : Prop := ∃ torn cs, s.powerCuts = ⟨0, torn⟩ :: cs

/-- Who moved: the power environment, the core in a command, or the host and the idle core. `cs` is the power environment's list
with the step counted off. -/
inductive StepCase (s t : State) : Prop where
  | powerLost (torn : Option Byte) (cs : List PowerCut) (hc : s.powerCuts = ⟨0, torn⟩ :: cs)
      (ht : t = powerLoss torn (s.putCuts cs))
  | busy (cs : List PowerCut) (hc : ¬s.CutNow) (hb : s.phase ≠ .idle) (h : microStep (s.putCuts cs) = .next t)
  | idle (cs : List PowerCut) (hc : ¬s.CutNow) (hi : s.phase = .idle) (h : IdleStep (s.putCuts cs) t)

theorem step_eq_poweredStep (hc : ¬s.CutNow) : ∃ cs, step s = poweredStep (s.putCuts cs) := by
  obtain ⟨torn, cs, hcut, -⟩ | hs := step_cases s
  · exact absurd ⟨torn, cs, hcut⟩ hc
  · exact hs

theorem step_next_cases (h : step s = .next t) : StepCase s t := by
  by_cases hc : s.CutNow
  · obtain ⟨torn, cs, hcut⟩ := hc
    exact .powerLost torn cs hcut (Host.Outcome.next.inj ((step_cut_now hcut).symm.trans h)).symm
  · obtain ⟨cs, hs⟩ := step_eq_poweredStep hc
    by_cases hi : s.phase = .idle
    · obtain ⟨u, hu, hidle⟩ := poweredStep_idle (s := s.putCuts cs) hi
      obtain rfl : u = t := Host.Outcome.next.inj (hu.symm.trans (hs.symm.trans h))
      exact .idle cs hc hi hidle
    · exact .busy cs hc hi ((poweredStep_busy (s := s.putCuts cs) hi).symm.trans (hs.symm.trans h))

/-! ## The store at a power loss (R106) -/

theorem storeAfterCut_any {b : Byte} {x : Nat} (h : s.params.tornByte = .any) (hx : s.cellBeingWritten = some x)
    (hlt : x < s.params.storeSize) : s.storeAfterCut (some b) = Memory.write s.store x b := by
  simp [State.storeAfterCut, h, hx, hlt]

/-- A power loss leaves the store as it is, or spoils the one cell being written, which lies inside it (log entry 6). -/
theorem storeAfterCut_cases (s : State) (torn : Option Byte) :
    s.storeAfterCut torn = s.store ∨
      ∃ x b, s.params.tornByte = .any ∧ torn = some b ∧ s.cellBeingWritten = some x ∧ x < s.params.storeSize ∧
        s.storeAfterCut torn = Memory.write s.store x b := by
  unfold State.storeAfterCut
  split
  · next b x hany hx =>
    split
    · exact .inr ⟨x, b, hany, rfl, hx, ‹_›, rfl⟩
    · exact .inl rfl
  · exact .inl rfl

end Sys2Proof.Machine
end

section
/-! The invariant of the controllers (41_write_frame.md section 2, 42_read_verify.md section 2). A micro-step keeps what is common to
all phases (`State.Ground`) by writing no cell but those of the record, and takes what its phase says to what the next phase says. -/

namespace Sys2Proof.Machine

variable {s t : State} {a n : Nat} {p : Phase}

/-! ## The part common to all phases -/

/-- The invariant without what the phase says. -/
def State.Ground (s : State) : Prop :=
  s.params.Legal ∧ s.RegistersFit ∧ Memory.wf s.store = true ∧ Memory.below s.store s.params.storeSize = true

theorem inv_iff : s.Inv ↔ s.Ground ∧ s.PhaseInv := by
  simp only [State.Inv, State.Ground, and_assoc]

theorem phaseInv_idle (h : s.phase = .idle) : s.PhaseInv := by
  simp only [State.PhaseInv, h]

/-- Nothing but the store, IDX and the parameters matters to the common part while the record stays. -/
theorem ground_of_same_record (h : s.Ground) (hparams : t.params = s.params) (haddr : t.addr = s.addr)
    (hsize : t.size = s.size) (hidx : t.idx < 2 ^ s.params.widths.sw)
    (hstore : t.store = s.store ∨ ∃ x b, x < s.params.storeSize ∧ t.store = Memory.write s.store x b) : t.Ground := by
  obtain ⟨hlegal, ⟨ha, hs, -⟩, hwf, hbelow⟩ := h
  rw [State.Ground, State.RegistersFit, hparams, haddr, hsize]
  refine ⟨hlegal, ⟨ha, hs, hidx⟩, ?_⟩
  obtain hsame | ⟨x, b, hx, hwrite⟩ := hstore
  · rw [hsame]
    exact ⟨hwf, hbelow⟩
  · rw [hwrite]
    exact ⟨write_wf hwf x b, write_below hbelow hx b⟩

/-! ## Power losses and an idle core -/

theorem powerLoss_keeps_inv (h : s.Ground) (torn : Option Byte) : (powerLoss torn s).Inv := by
  obtain ⟨hlegal, -, hwf, hbelow⟩ := h
  refine inv_iff.mpr ⟨⟨hlegal, ?_, ?_⟩, phaseInv_idle rfl⟩
  · exact ⟨Nat.mod_lt _ (Nat.two_pow_pos _), Nat.mod_lt _ (Nat.two_pow_pos _), Nat.mod_lt _ (Nat.two_pow_pos _)⟩
  · obtain hsame | ⟨x, b, -, -, -, hx, hwrite⟩ := storeAfterCut_cases s torn
    · rw [powerLoss_store, powerLoss_params, hsame]
      exact ⟨hwf, hbelow⟩
    · rw [powerLoss_store, powerLoss_params, hwrite]
      exact ⟨write_wf hwf x b, write_below hbelow hx b⟩

/-- A record command begins with nothing folded. -/
theorem accept_keeps_inv (h : s.Ground) (hl : legalOperands s.params.widths a n = true) (hp : p = .wRdold ∨ p = .rFold) :
    (s.accept a n p).Inv := by
  obtain ⟨hlegal, -, hwf, hbelow⟩ := h
  obtain ⟨ha, hn⟩ := legal_operands_fit hl
  refine inv_iff.mpr ⟨⟨hlegal, ⟨ha, hn, Nat.two_pow_pos _⟩, hwf, hbelow⟩, ?_⟩
  obtain rfl | rfl := hp
  · exact ⟨hl, rfl, rfl⟩
  · exact ⟨hl, (legalOperands_iff.mp hl).1, rfl⟩

theorem idleStep_keeps_inv (h : s.Ground) (hi : s.phase = .idle) (hs : IdleStep s t) : t.Inv := by
  cases hs with
  | waits => exact inv_iff.mpr ⟨h, phaseInv_idle hi⟩
  | setsSource => exact inv_iff.mpr ⟨h, phaseInv_idle hi⟩
  | setsDest => exact inv_iff.mpr ⟨h, phaseInv_idle hi⟩
  | answers => exact inv_iff.mpr ⟨h, phaseInv_idle hi⟩
  | begins _ hp hl => exact accept_keeps_inv (s := s.putMoves _) h hl hp

/-! ## What the invariant says in the other phases -/

theorem phaseInv_wRdold (h : s.Inv) (hp : s.phase = .wRdold) : s.RecordLegal ∧ s.idx = 0 ∧ s.acc = crcInit := by
  obtain ⟨-, -, -, -, hinv⟩ := h
  simpa only [State.PhaseInv, hp] using hinv

theorem phaseInv_wLead (h : s.Inv) (hp : s.phase = .wLead) :
    s.RecordLegal ∧ s.idx = s.size ∧ s.PayloadWritten ∧ s.GuardsEqual := by
  obtain ⟨-, -, -, -, hinv⟩ := h
  simpa only [State.PhaseInv, hp] using hinv

theorem phaseInv_wTrail (h : s.Inv) (hp : s.phase = .wTrail) :
    s.RecordLegal ∧ s.idx = s.size ∧ s.PayloadWritten ∧ Memory.read s.store s.addr = s.acc ∧
      Memory.read s.store (s.addr + s.size + 1) = s.tmp := by
  obtain ⟨-, -, -, -, hinv⟩ := h
  simpa only [State.PhaseInv, hp] using hinv

theorem phaseInv_rLead (h : s.Inv) (hp : s.phase = .rLead) :
    s.RecordLegal ∧ s.idx = s.size ∧ s.acc = crc8 (payloadOf s.store s.addr s.size) := by
  obtain ⟨-, -, -, -, hinv⟩ := h
  simpa only [State.PhaseInv, hp] using hinv

/-! ## From phase to phase, a WRREC -/

theorem wRdold_keeps_phaseInv (hinv : s.Inv) (hp : s.phase = .wRdold) (h : microWRdold s = .next t) : t.PhaseInv := by
  obtain ⟨hl, hidx, hacc⟩ := phaseInv_wRdold hinv hp
  obtain ⟨-, rfl⟩ := microWRdold_next h
  exact ⟨hl, hidx, hacc, rfl⟩

theorem wPlace_keeps_phaseInv (hinv : s.Inv) (hp : s.phase = .wPlace) (h : microWPlace s = .next t) : t.PhaseInv := by
  obtain ⟨hl, hidx, hacc, htmp⟩ := phaseInv_wPlace hinv hp
  obtain ⟨-, -, hwf, -, -⟩ := hinv
  obtain ⟨-, rfl⟩ := microWPlace_next h
  have hpos : s.idx < s.size := hidx ▸ (legalOperands_iff.mp hl).1
  have hlead : Memory.read (Memory.write s.store (trailAddr s.addr s.size) s.tmp) s.addr = s.tmp :=
    (read_write_other (by rw [trailAddr]; omega) _).trans htmp
  refine ⟨hl, hpos, ?_, hlead, read_write_same hwf _ _⟩
  simp [State.PayloadWritten, hidx, hacc, payloadOf, crcInit]

/-- One payload byte more is written and folded; the cell lies beyond those written before. -/
theorem payloadWritten_succ {b : Byte} (hwf : Memory.wf s.store = true) (h : s.PayloadWritten) (hb : s.src[s.idx]? = some b) :
    State.PayloadWritten { s with
      store := Memory.write s.store (payloadAddr s.addr s.idx) b, acc := crc8Update s.acc b, idx := s.idx + 1 } := by
  obtain ⟨-, hpayload, hacc⟩ := h
  have hroom : s.idx + 1 ≤ s.src.length := (List.getElem?_eq_some_iff.mp hb).1
  refine ⟨hroom, ?_, ?_⟩ <;> dsimp only
  · rw [payloadOf_succ, payloadAddr, payloadOf_write_outside (by omega), hpayload, read_write_same hwf,
      take_succ_of_getElem? hb]
  · rw [crc8_take_succ hb, hacc]

theorem wPayload_keeps_phaseInv (hinv : s.Inv) (hp : s.phase = .wPayload) (h : microWPayload s = .next t) :
    t.PhaseInv := by
  obtain ⟨hl, hlt, hwritten, hlead, htrail⟩ := phaseInv_wPayload hinv hp
  obtain ⟨-, -, hwf, -, -⟩ := hinv
  obtain ⟨b, hb, -, rfl⟩ := microWPayload_next h
  have hmore := payloadWritten_succ hwf hwritten hb
  have hguards : Memory.read (Memory.write s.store (payloadAddr s.addr s.idx) b) s.addr = s.tmp ∧
      Memory.read (Memory.write s.store (payloadAddr s.addr s.idx) b) (s.addr + s.size + 1) = s.tmp :=
    ⟨(read_write_other (by rw [payloadAddr]; omega) b).trans hlead,
      (read_write_other (by rw [payloadAddr]; omega) b).trans htrail⟩
  by_cases hlast : s.idx + 1 = s.size
  · simp only [State.PhaseInv, if_pos hlast]
    exact ⟨hl, hlast, hmore, hguards⟩
  · simp only [State.PhaseInv, if_neg hlast]
    exact ⟨hl, Nat.lt_of_le_of_ne hlt hlast, hmore, hguards⟩

theorem wLead_keeps_phaseInv (hinv : s.Inv) (hp : s.phase = .wLead) (h : microWLead s = .next t) : t.PhaseInv := by
  obtain ⟨hl, hidx, ⟨hroom, hpayload, hacc⟩, -, htrail⟩ := phaseInv_wLead hinv hp
  obtain ⟨-, -, hwf, -, -⟩ := hinv
  obtain ⟨-, rfl⟩ := microWLead_next h
  have hkept : Memory.read (Memory.write s.store (leadAddr s.addr) s.acc) (s.addr + s.size + 1) = s.tmp :=
    (read_write_other (by rw [leadAddr]; omega) _).trans htrail
  refine ⟨hl, hidx, ⟨hroom, ?_, hacc⟩, read_write_same hwf _ _, hkept⟩
  exact (payloadOf_write_outside (.inl (Nat.le_refl _)) _).trans hpayload

/-! ## From phase to phase, an RDREC -/

theorem rFold_keeps_phaseInv (hinv : s.Inv) (hp : s.phase = .rFold) (h : microRFold s = .next t) : t.PhaseInv := by
  obtain ⟨hl, hlt, hacc⟩ := phaseInv_rFold hinv hp
  obtain ⟨-, rfl⟩ := microRFold_next h
  have hmore : crc8Update s.acc (Memory.read s.store (payloadAddr s.addr s.idx)) =
      crc8 (payloadOf s.store s.addr (s.idx + 1)) := by
    rw [crc8_payloadOf_succ, hacc, payloadAddr]
  by_cases hlast : s.idx + 1 = s.size
  · simp only [State.PhaseInv, if_pos hlast]
    exact ⟨hl, hlast, hlast ▸ hmore⟩
  · simp only [State.PhaseInv, if_neg hlast]
    exact ⟨hl, Nat.lt_of_le_of_ne hlt hlast, hmore⟩

theorem rLead_keeps_phaseInv (hinv : s.Inv) (hp : s.phase = .rLead) (h : microRLead s = .next t) : t.PhaseInv := by
  obtain ⟨hl, hidx, hacc⟩ := phaseInv_rLead hinv hp
  obtain ⟨-, ⟨hmatch, rfl⟩ | ⟨-, rfl⟩⟩ := microRLead_next h
  · exact ⟨hl, hidx, hacc, hmatch⟩
  · exact phaseInv_idle rfl

theorem rTrail_keeps_phaseInv (hinv : s.Inv) (hp : s.phase = .rTrail) (h : microRTrail s = .next t) : t.PhaseInv := by
  obtain ⟨hl, -, hacc, hlead⟩ := phaseInv_rTrail hinv hp
  obtain ⟨-, ⟨hmatch, rfl⟩ | ⟨-, rfl⟩⟩ := microRTrail_next h
  · have hvalid : ValidRecord s.store s.addr s.size := ⟨hlead.trans hacc, hmatch.trans (congrArg (~~~·) hacc)⟩
    exact ⟨hl, (legalOperands_iff.mp hl).1, hvalid, hacc, Nat.zero_le _, rfl⟩
  · exact phaseInv_idle rfl

theorem rCopy_keeps_phaseInv (hinv : s.Inv) (hp : s.phase = .rCopy) (h : microRCopy s = .next t) : t.PhaseInv := by
  obtain ⟨hl, hlt, hvalid, hacc, -, hcopied⟩ := phaseInv_rCopy hinv hp
  obtain ⟨-, hd, rfl⟩ := microRCopy_next h
  by_cases hlast : s.idx + 1 = s.size
  · exact phaseInv_idle (if_pos hlast)
  · simp only [State.PhaseInv, if_neg hlast, hp, List.length_set]
    exact ⟨hl, Nat.lt_of_le_of_ne hlt hlast, hvalid, hacc, hd, take_set_payloadOf_succ hd hcopied⟩

/-! ## Every step -/

theorem microStep_keeps_phaseInv (hinv : s.Inv) (h : microStep s = .next t) : t.PhaseInv := by
  rw [microStep] at h
  cases hp : s.phase <;> simp only [hp] at h
  case idle =>
    cases h
    exact phaseInv_idle hp
  case wRdold => exact wRdold_keeps_phaseInv hinv hp h
  case wPlace => exact wPlace_keeps_phaseInv hinv hp h
  case wPayload => exact wPayload_keeps_phaseInv hinv hp h
  case wLead => exact wLead_keeps_phaseInv hinv hp h
  case wTrail =>
    obtain ⟨-, rfl⟩ := microWTrail_next h
    exact phaseInv_idle rfl
  case rFold => exact rFold_keeps_phaseInv hinv hp h
  case rLead => exact rLead_keeps_phaseInv hinv hp h
  case rTrail => exact rTrail_keeps_phaseInv hinv hp h
  case rCopy => exact rCopy_keeps_phaseInv hinv hp h

/-- What every phase of a command says: the record is legal, and IDX counts its payload bytes, of which the phases of the payload
loops still have one to take. -/
theorem inv_busy (hinv : s.Inv) (hb : s.phase ≠ .idle) :
    s.RecordLegal ∧ s.idx ≤ s.size ∧ (s.phase = .wPayload ∨ s.phase = .rFold ∨ s.phase = .rCopy → s.idx < s.size) := by
  cases hp : s.phase
  case idle => exact absurd hp hb
  case wRdold =>
    obtain ⟨hl, hidx, -⟩ := phaseInv_wRdold hinv hp
    exact ⟨hl, hidx ▸ Nat.zero_le _, by simp⟩
  case wPlace =>
    obtain ⟨hl, hidx, -⟩ := phaseInv_wPlace hinv hp
    exact ⟨hl, hidx ▸ Nat.zero_le _, by simp⟩
  case wPayload =>
    obtain ⟨hl, hlt, -⟩ := phaseInv_wPayload hinv hp
    exact ⟨hl, Nat.le_of_lt hlt, fun _ => hlt⟩
  case wLead =>
    obtain ⟨hl, hidx, -⟩ := phaseInv_wLead hinv hp
    exact ⟨hl, Nat.le_of_eq hidx, by simp⟩
  case wTrail =>
    obtain ⟨hl, hidx, -⟩ := phaseInv_wTrail hinv hp
    exact ⟨hl, Nat.le_of_eq hidx, by simp⟩
  case rFold =>
    obtain ⟨hl, hlt, -⟩ := phaseInv_rFold hinv hp
    exact ⟨hl, Nat.le_of_lt hlt, fun _ => hlt⟩
  case rLead =>
    obtain ⟨hl, hidx, -⟩ := phaseInv_rLead hinv hp
    exact ⟨hl, Nat.le_of_eq hidx, by simp⟩
  case rTrail =>
    obtain ⟨hl, hidx, -⟩ := phaseInv_rTrail hinv hp
    exact ⟨hl, Nat.le_of_eq hidx, by simp⟩
  case rCopy =>
    obtain ⟨hl, hlt, -⟩ := phaseInv_rCopy hinv hp
    exact ⟨hl, Nat.le_of_lt hlt, fun _ => hlt⟩

theorem idx_le_of_microEffect (hinv : s.Inv) (hb : s.phase ≠ .idle) (h : MicroEffect s t) : t.idx ≤ s.size := by
  obtain ⟨-, hle, hloop⟩ := inv_busy hinv hb
  obtain hidx | ⟨hp, hidx⟩ := h.idx
  · exact Nat.le_trans hidx hle
  · exact hidx ▸ hloop hp

theorem microStep_keeps_inv (hinv : s.Inv) (hb : s.phase ≠ .idle) (h : microStep s = .next t) : t.Inv := by
  have he := microStep_effect hb h
  obtain ⟨hground, -⟩ := inv_iff.mp hinv
  have hidx : t.idx < 2 ^ s.params.widths.sw := by
    obtain ⟨-, ⟨-, hsize, -⟩, -⟩ := hground
    exact Nat.lt_of_le_of_lt (idx_le_of_microEffect hinv hb he) hsize
  refine inv_iff.mpr ⟨ground_of_same_record hground he.params he.addr he.size hidx ?_, microStep_keeps_phaseInv hinv h⟩
  obtain hsame | ⟨x, b, -, hx, hwrite⟩ := he.store
  · exact .inl hsame
  · exact .inr ⟨x, b, hx, hwrite⟩

/-- Settles O45: the three ways to move, none of which reads the list of power losses to come. -/
theorem everyStepKeepsTheInvariant : Obligations.EveryStepKeepsTheInvariant := by
  intro s t hinv hs
  obtain ⟨hground, -⟩ := inv_iff.mp hinv
  cases step_next_cases hs with
  | powerLost torn cs _ ht => exact ht ▸ powerLoss_keeps_inv (s := s.putCuts cs) hground torn
  | busy cs _ hb h => exact microStep_keeps_inv (s := s.putCuts cs) hinv hb h
  | idle cs _ hi h => exact idleStep_keeps_inv (s := s.putCuts cs) hground hi h

/-- Settles O46: the default parameters are legal, the registers hold 0, and the store lists nothing. -/
theorem resetMeetsTheInvariant : Obligations.ResetMeetsTheInvariant := by
  refine inv_iff.mpr ⟨⟨⟨defaultInstance_legal, ?_, Nat.le_refl _⟩, ?_, wf_nil, below_nil _⟩, phaseInv_idle rfl⟩
  · decide
  · exact ⟨Nat.two_pow_pos _, Nat.two_pow_pos _, Nat.two_pow_pos _⟩

end Sys2Proof.Machine
end

section
/-! The rules of the whole machine (10_state.md sections 1 and 3, 20_memory.md section 8, 30_encoding.md section 5, 42_read_verify.md
section 3, 60_exceptions.md section 2), each read off what a step can do. -/

namespace Sys2Proof.Machine

variable {s t : State} {a n x : Nat} {st : Status} {r : Byte}

/-! ## Phases, moves and acceptances -/

/-- The phase that a code stands for; a code that is never entered is read as IDLE. -/
def phaseOfCode (c : BitVec 4) : Phase :=
  match c.toNat with
  | 1 => .wRdold
  | 2 => .wPlace
  | 3 => .wPayload
  | 4 => .wLead
  | 5 => .wTrail
  | 8 => .rFold
  | 9 => .rLead
  | 10 => .rTrail
  | 11 => .rCopy
  | _ => .idle

theorem phaseOfCode_code (p : Phase) : phaseOfCode p.code = p := by
  cases p <;> rfl

/-- Settles O11: a code is read back as its phase, so no two phases share one. -/
theorem phaseCodes : Obligations.PhaseCodes :=
  ⟨rfl, rfl, rfl, rfl, rfl, rfl, rfl, rfl, rfl, rfl, fun _ _ h => Function.LeftInverse.injective phaseOfCode_code h⟩

/-- Settles O7: with no power loss to come the step is the powered one. -/
theorem stepRunsThePresentedCommand : Obligations.StepRunsThePresentedCommand :=
  fun _ _ _ hi hc hm => (step_no_cuts hc).trans (poweredStep_issue hi hm)

/-- Settles O8: the branches of the power environment's list, and of the host's. -/
theorem stepOtherMoves : Obligations.StepOtherMoves :=
  ⟨fun _ hb hc => step_busy_no_cuts hc hb, fun _ _ _ _ hc => step_cut_later hc,
    fun _ hi hc hm => (step_no_cuts hc).trans (poweredStep_waiting hi hm),
    fun _ _ _ hi hc hm => (step_no_cuts hc).trans (poweredStep_setSource hi hm),
    fun _ _ _ hi hc hm => (step_no_cuts hc).trans (poweredStep_setDest hi hm)⟩

/-- Settles O47: the fields of the reset state, as it names them. -/
theorem resetIsReady : Obligations.ResetIsReady := ⟨rfl, rfl, rfl, rfl, rfl⟩

theorem exec_busy (h : s.phase ≠ .idle) (i : Instr) : exec i s = .next s := by
  obtain ⟨-, he⟩ | ⟨hi, -⟩ := exec_cases i s
  · exact he
  · exact absurd hi h

/-- The operands that R56 refuses, one class after the other. -/
theorem legalOperands_eq_false_iff {W : Widths} :
    legalOperands W a n = false ↔ n = 0 ∨ 2 ^ W.sw ≤ n ∨ a + n + 1 > 2 ^ W.aw - 1 := by
  rw [Bool.eq_false_iff, Ne, legalOperands_iff, Widths.lastAddress]
  omega

/-- Settles O19: the reserved row, and operands that the acceptance test refuses. -/
theorem reservedAndIllegalOperandsRespondIllegal : Obligations.ReservedAndIllegalOperandsRespondIllegal := by
  have hanswer (s : State) : s.respond .illegal 0 = { s with responses := s.responses ++ [0x0200#16] } := by
    rw [State.respond, responseWord_illegal]
  refine ⟨fun w s h => hanswer s ▸ exec_reserved_idle h w, fun a n s h hl => ?_⟩
  have hl := legalOperands_eq_false_iff.mpr hl
  exact hanswer s ▸ ⟨exec_wrrec_illegal h hl, exec_rdrec_illegal h hl⟩

/-- Settles O21: the operands pass the acceptance test. -/
theorem wrrecAcceptance : Obligations.WrrecAcceptance :=
  fun _ _ _ h hn hsw haw => exec_wrrec_legal h (legalOperands_iff.mpr ⟨hn, hsw, haw⟩)

/-- Settles O29: the operands pass the acceptance test. -/
theorem rdrecAcceptance : Obligations.RdrecAcceptance :=
  fun _ _ _ h hn hsw haw => exec_rdrec_legal h (legalOperands_iff.mpr ⟨hn, hsw, haw⟩)

/-- Settles O9: neither a power loss nor a micro-step takes a move of the host; an idle core takes the presented word. -/
theorem busyCoreAcceptsNothing : Obligations.BusyCoreAcceptsNothing := by
  refine ⟨fun _ => ⟨cmdReady_iff, busy_iff⟩, fun _ i hb => exec_busy hb i, fun s t hb hs => ?_,
    fun s w ms hi hc hm => ?_⟩
  · cases step_next_cases hs with
    | powerLost _ _ _ ht => rw [ht, powerLoss_hostMoves, putCuts_hostMoves]
    | busy cs _ _ h => exact (microStep_effect (s := s.putCuts cs) hb h).hostMoves
    | idle _ _ hi => exact absurd hi hb
  · have hstep : step s = exec (decode s.params.widths w) (s.putMoves ms) :=
      (step_no_cuts hc).trans (poweredStep_issue hi hm)
    obtain ⟨_, _, -, he⟩ | ⟨_, _, _, -, -, he⟩ := exec_idle_cases s.params.widths (decode s.params.widths w)
    · exact ⟨_, hstep.trans (he (s.putMoves ms) hi rfl), rfl⟩
    · exact ⟨_, hstep.trans (he (s.putMoves ms) hi rfl), rfl⟩

/-! ## Accesses and responses -/

/-- An idle core makes no access, changes no cell and keeps the parameters. -/
theorem IdleStep.quiet (h : IdleStep s t) : t.history = s.history ∧ t.store = s.store ∧ t.params = s.params := by
  cases h <;> exact ⟨rfl, rfl, rfl⟩

/-- Settles O10: only a micro-step makes accesses, and those within R17's bounds. -/
theorem oneStoreAccessPerMicroStep : Obligations.OneStoreAccessPerMicroStep := by
  intro s t hs
  cases step_next_cases hs with
  | powerLost torn cs hc ht =>
    refine ⟨[], ?_, fun _ => rfl, fun _ => rfl, fun _ hcut => absurd hc (hcut torn cs)⟩
    rw [ht, powerLoss_history, putCuts_history, List.append_nil]
  | busy cs hc hb h =>
    obtain ⟨new, hnew, hbounds⟩ := (microStep_effect (s := s.putCuts cs) hb h).accesses
    exact ⟨new, hnew, fun hi => absurd hi hb, fun hcut => absurd hcut hc, fun _ _ => hbounds⟩
  | idle cs hc hi h =>
    obtain ⟨hhistory, -, -⟩ := h.quiet
    exact ⟨[], hhistory.trans (List.append_nil _).symm, fun _ => rfl, fun _ => rfl, fun hb => absurd hi hb⟩

/-- The words of R59's list: any result with OK, and the two others with a zero result. -/
theorem responseWord_listed (h : st = .ok ∨ r = 0) :
    (responseWord st r).toNat ≤ 0x00FF ∨ responseWord st r = 0x0100#16 ∨ responseWord st r = 0x0200#16 := by
  cases st with
  | ok =>
    have hzeros : (responseWord .ok r).toNat = r.toNat := by
      rw [responseWord, BitVec.toNat_append]
      simp [Status.code]
    exact .inl (hzeros ▸ Nat.le_of_lt_succ r.isLt)
  | verifyFail =>
    obtain h | rfl := h
    · cases h
    · exact .inr (.inl responseWord_verifyFail_zero)
  | illegal =>
    obtain h | rfl := h
    · cases h
    · exact .inr (.inr responseWord_illegal)

/-- The responses of an idle core's step: none, or one of R59's words. -/
theorem IdleStep.responses (h : IdleStep s t) :
    t.responses = s.responses ∨ ∃ st r, (st = .ok ∨ r = 0) ∧ t.responses = s.responses ++ [responseWord st r] := by
  cases h with
  | answers _ hr => exact .inr ⟨_, _, hr.imp_right And.right, rfl⟩
  | _ => exact .inl rfl

/-- Settles O20: a micro-step responds with a zero result, an idle core with a result only when the status is OK. -/
theorem responseWordsThatOccur : Obligations.ResponseWordsThatOccur := by
  intro s t hs
  cases step_next_cases hs with
  | powerLost _ _ _ ht =>
    have hsame : t.responses = s.responses := by rw [ht, powerLoss_responses, putCuts_responses]
    exact ⟨fun _ => hsame, .inl hsame⟩
  | busy cs hc hb h =>
    refine ⟨fun hcut => absurd hcut hc, ?_⟩
    obtain ⟨-, hsame⟩ | ⟨-, st, -, hr⟩ := (microStep_effect (s := s.putCuts cs) hb h).responses
    · exact .inl hsame
    · exact .inr ⟨_, hr, responseWord_listed (.inr rfl)⟩
  | idle cs hc hi h =>
    refine ⟨fun hcut => absurd hcut hc, ?_⟩
    obtain hsame | ⟨st, r, hlisted, hr⟩ := h.responses
    · exact .inl hsame
    · exact .inr ⟨_, hr, responseWord_listed hlisted⟩

/-! ## The store, and what a power loss leaves of it -/

theorem storeAfterCut_unspoiled {torn : Option Byte}
    (h : s.params.tornByte = .atomic ∨ torn = none ∨ s.cellBeingWritten = none) : s.storeAfterCut torn = s.store := by
  obtain hsame | ⟨x, b, hany, htorn, hcell, -, -⟩ := storeAfterCut_cases s torn
  · exact hsame
  · simp [hany, htorn, hcell] at h

theorem read_storeAfterCut_other (h : s.cellBeingWritten ≠ some x) (torn : Option Byte) :
    Memory.read (s.storeAfterCut torn) x = Memory.read s.store x := by
  obtain hsame | ⟨y, b, -, -, hcell, -, hwrite⟩ := storeAfterCut_cases s torn
  · rw [hsame]
  · rw [hwrite]
    exact read_write_other (fun hxy => h (hcell.trans (congrArg some hxy.symm))) b

/-- Settles O42: the step is the power loss, which spoils at most the cell being written. -/
theorem powerLossEffect : Obligations.PowerLossEffect := by
  intro s torn cs hc
  refine ⟨_, step_cut_now hc, rfl, rfl, rfl, rfl, rfl, rfl, rfl, rfl, fun h => storeAfterCut_unspoiled h,
    fun x hx => read_storeAfterCut_other (s := s.putCuts cs) hx torn, fun x b hany htorn hx hlt hwf => ?_⟩
  rw [powerLoss_store, htorn, storeAfterCut_any (s := s.putCuts cs) hany hx hlt]
  exact read_write_same hwf x b

/-- The cell being written is one of the record in progress (R40, R76). -/
theorem cellBeingWritten_inRecord (hinv : s.Inv) (h : s.cellBeingWritten = some x) : InRecord s.addr s.size x := by
  cases hp : s.phase <;> simp only [State.cellBeingWritten, hp, trailAddr, leadAddr, payloadAddr] at h
  case wPayload =>
    obtain ⟨-, hlt, -⟩ := phaseInv_wPayload hinv hp
    cases h
    omega
  all_goals cases h
  all_goals omega

theorem cellBeingWritten_eq_none (h : s.phase ∈ [Phase.idle, .wRdold, .rFold, .rLead, .rTrail, .rCopy]) :
    s.cellBeingWritten = none := by
  cases hp : s.phase <;> simp [State.cellBeingWritten, hp] at h ⊢

/-- What a step can do to the store: nothing, or a write to the cell being written. -/
theorem step_store (hs : step s = .next t) :
    t.store = s.store ∨ ∃ x b, s.cellBeingWritten = some x ∧ t.store = Memory.write s.store x b := by
  cases step_next_cases hs with
  | powerLost torn cs _ ht =>
    obtain hsame | ⟨x, b, -, -, hcell, -, hwrite⟩ := storeAfterCut_cases (s.putCuts cs) torn
    · exact .inl (ht ▸ hsame)
    · exact .inr ⟨x, b, hcell, ht ▸ hwrite⟩
  | busy cs _ hb h =>
    obtain hsame | ⟨x, b, hcell, -, hwrite⟩ := (microStep_effect (s := s.putCuts cs) hb h).store
    · exact .inl hsame
    · exact .inr ⟨x, b, hcell, hwrite⟩
  | idle _ _ _ h =>
    obtain ⟨-, hstore, -⟩ := h.quiet
    exact .inl hstore

theorem step_params (hs : step s = .next t) : t.params = s.params := by
  cases step_next_cases hs with
  | powerLost _ _ _ ht => rw [ht, powerLoss_params, putCuts_params]
  | busy cs _ hb h => exact (microStep_effect (s := s.putCuts cs) hb h).params
  | idle _ _ _ h =>
    obtain ⟨-, -, hparams⟩ := h.quiet
    exact hparams

/-- Settles O48: a step writes at most the cell being written, which is one of the record, and O20 says what it responds. -/
theorem storeChangesOnlyInsideTheRecord : Obligations.StoreChangesOnlyInsideTheRecord := by
  intro s t hinv hs
  refine ⟨step_params hs, ?_, fun hp => ?_, fun x hx => ?_⟩
  · obtain ⟨-, hsame | ⟨r, hr, -⟩⟩ := responseWordsThatOccur s t hs
    · exact ⟨[], hsame.trans (List.append_nil _).symm⟩
    · exact ⟨[r], hr⟩
  · obtain hsame | ⟨x, b, hcell, -⟩ := step_store hs
    · exact hsame
    · exact absurd ((cellBeingWritten_eq_none hp).symm.trans hcell) nofun
  · obtain hsame | ⟨y, b, hcell, hwrite⟩ := step_store hs
    · rw [hsame]
    · rw [hwrite]
      refine read_write_other ?_ b
      rintro rfl
      exact hx (cellBeingWritten_inRecord hinv hcell)

/-! ## The destination (R96) -/

/-- Who changes DST: R_COPY, which responds at most OK, or the host's own move, which is no command. -/
theorem step_dst (hs : step s = .next t) :
    t.dst = s.dst ∨
      (s.phase = .rCopy ∧ (t.responses = s.responses ∨ t.responses = s.responses ++ [responseWord .ok 0])) ∨
      (s.phase = .idle ∧ t.responses = s.responses ∧ ∃ bs ms, s.hostMoves = .setDest bs :: ms) := by
  cases step_next_cases hs with
  | powerLost _ _ _ ht => exact .inl (by rw [ht, powerLoss_dst, putCuts_dst])
  | busy cs _ hb h => exact (microStep_effect (s := s.putCuts cs) hb h).dst.imp_right .inl
  | idle cs _ hi h =>
    cases h with
    | setsDest hm => exact .inr (.inr ⟨hi, rfl, _, _, hm⟩)
    | _ => exact .inl rfl

/-- R_COPY is entered from R_TRAIL, once the trailing guard has matched as well. -/
theorem step_enters_rCopy (hinv : s.Inv) (hs : step s = .next t) (ht : t.phase = .rCopy) (hne : s.phase ≠ .rCopy) :
    s.phase = .rTrail ∧ ValidRecord s.store s.addr s.size := by
  cases step_next_cases hs with
  | powerLost _ _ _ hloss => simp [hloss] at ht
  | busy cs _ hb h =>
    obtain hp | ⟨hp, htrail⟩ := (microStep_effect (s := s.putCuts cs) hb h).copy ht
    · exact absurd hp hne
    · obtain ⟨-, -, hacc, hlead⟩ := phaseInv_rTrail hinv hp
      exact ⟨hp, hlead.trans hacc, htrail.trans (congrArg (~~~·) hacc)⟩
  | idle cs _ hi h =>
    cases h with
    | begins _ hp => obtain rfl | rfl := hp <;> cases ht
    | _ => exact absurd (hi.symm.trans ht) nofun

/-- Settles O36: by who changes DST, and how R_COPY is entered. -/
theorem destinationUntouchedUnlessVerified : Obligations.DestinationUntouchedUnlessVerified := by
  intro s t hinv hs
  refine ⟨fun hne => ?_, step_enters_rCopy hinv hs, fun r hr hstatus => ?_⟩
  · obtain hsame | ⟨hp, -⟩ | ⟨hi, -, hm⟩ := step_dst hs
    · exact absurd hsame hne
    · exact .inl hp
    · exact .inr ⟨hi, hm⟩
  · obtain hsame | ⟨-, hnone | hok⟩ | ⟨-, hnone, -⟩ := step_dst hs
    · exact hsame
    · simp [hnone] at hr
    · obtain rfl : responseWord .ok 0 = r := by simpa using hok.symm.trans hr
      exact absurd (by decide) hstatus
    · simp [hnone] at hr

end Sys2Proof.Machine
end

section
/-! When a micro-step is refused and when it completes (20_memory.md R42, 93_implementation_defined.md U3 and U5), and that a command
whose micro-steps all complete ends (70_reset_and_hazards.md section 7): each lowers the count of the micro-steps left. -/

namespace Sys2Proof.Machine

variable {s t : State} {a : Nat}

/-! ## Refusals -/

theorem nextStoreAddress_busy (h : s.nextStoreAddress = some a) : s.phase ≠ .idle := by
  intro hp
  simp [State.nextStoreAddress, hp] at h

theorem microStep_outside (h : s.nextStoreAddress = some a) (ha : s.params.storeSize ≤ a)
    (hsrc : s.phase = .wPayload → s.idx < s.src.length) : microStep s = .refused (.outsideStore a) := by
  rw [microStep]
  cases hp : s.phase <;> simp only [State.nextStoreAddress, hp] at h <;> cases h
  case wPayload =>
    obtain ⟨b, hb⟩ : ∃ b, s.src[s.idx]? = some b := ⟨_, List.getElem?_eq_getElem (hsrc hp)⟩
    exact (readSource_some hb).trans (writeStore_outside (s := s.note (.srcRead s.idx b)) ha)
  case wPlace | wLead | wTrail => exact writeStore_outside ha
  all_goals exact readStore_outside ha

/-- Settles O51: the phase has a store access, so the core is busy and its micro-step is refused. -/
theorem outsideTheStoreIsRefused : Obligations.OutsideTheStoreIsRefused :=
  fun _ _ hc h ha hsrc => (step_busy_no_cuts hc (nextStoreAddress_busy h)).trans (microStep_outside h ha hsrc)

/-- Settles O52: the buffer access is the micro-step's first in W_PAYLOAD, and its second in R_COPY. -/
theorem shortBuffersAreRefused : Obligations.ShortBuffersAreRefused := by
  refine ⟨fun s hp hc hshort => ?_, fun s hp hc ha hshort => ?_⟩ <;> rw [step_busy_no_cuts hc (by simp [hp]), microStep, hp]
  · exact readSource_none hshort
  · exact (readStore_inside ha).trans (writeDest_outside (s := s.note (.storeRead _ _)) hshort)

/-! ## Micro-steps that complete -/

theorem microStep_completes (ha : ∀ a, s.nextStoreAddress = some a → a < s.params.storeSize)
    (hsrc : s.phase = .wPayload → s.idx < s.src.length) (hdst : s.phase = .rCopy → s.idx < s.dst.length) :
    ∃ t, microStep s = .next t := by
  rw [microStep]
  cases hp : s.phase <;> simp only [State.nextStoreAddress, hp, Option.some.injEq, forall_eq'] at ha
  case idle => exact ⟨s, rfl⟩
  case wPayload =>
    obtain ⟨b, hb⟩ : ∃ b, s.src[s.idx]? = some b := ⟨_, List.getElem?_eq_getElem (hsrc hp)⟩
    exact ⟨_, (readSource_some hb).trans (writeStore_inside (s := s.note (.srcRead s.idx b)) ha)⟩
  case wPlace | wLead | wTrail => exact ⟨_, writeStore_inside ha⟩
  case wRdold | rFold => exact ⟨_, readStore_inside ha⟩
  case rLead => exact ⟨_, readStore_guard ha (·.acc) .leadingChecksumMismatch (·.enter .rTrail)⟩
  case rTrail => exact ⟨_, readStore_guard ha (~~~·.acc) .trailingChecksumMismatch (·.rewind.enter .rCopy)⟩
  case rCopy => exact ⟨_, (readStore_inside ha).trans (writeDest_inside (s := s.note (.storeRead _ _)) (hdst hp))⟩

/-- Every micro-step's store access is to a cell of the record in progress (R40, R76). -/
theorem nextStoreAddress_inRecord (hinv : s.Inv) (h : s.nextStoreAddress = some a) : InRecord s.addr s.size a := by
  obtain ⟨-, -, hloop⟩ := inv_busy hinv (nextStoreAddress_busy h)
  cases hp : s.phase <;>
    simp only [State.nextStoreAddress, hp, trailAddr, leadAddr, payloadAddr, reduceCtorEq, Option.some.injEq] at h
  case wPayload | rFold | rCopy =>
    have := hloop (by simp [hp])
    omega
  all_goals omega

/-- Settles O53: an idle core is never refused; a busy one forms addresses of the port, all of which the store implements. -/
theorem noRefusalInsideTheContract : Obligations.NoRefusalInsideTheContract := by
  intro s hinv hsize ⟨hsrc, hdst⟩
  by_cases hcut : s.CutNow
  · obtain ⟨torn, cs, hcut⟩ := hcut
    exact ⟨_, step_cut_now hcut⟩
  · obtain ⟨cs, hstep⟩ := step_eq_poweredStep hcut
    rw [hstep]
    by_cases hi : s.phase = .idle
    · obtain ⟨t, ht, -⟩ := poweredStep_idle (s := s.putCuts cs) hi
      exact ⟨t, ht⟩
    · obtain ⟨hl, -, hloop⟩ := inv_busy hinv hi
      rw [poweredStep_busy (s := s.putCuts cs) hi]
      refine microStep_completes (s := s.putCuts cs) (fun a ha => ?_)
        (fun hp => Nat.lt_of_lt_of_le (hloop (.inl hp)) (hsrc hp))
        (fun hp => Nat.lt_of_lt_of_le (hloop (.inr (.inr hp))) (hdst hp))
      obtain ⟨-, hlast⟩ := nextStoreAddress_inRecord hinv (a := a) ha
      exact Nat.lt_of_lt_of_eq (record_address_lt hl hlast) hsize.symm

/-! ## The end of a command -/

/-- The micro-steps of the command in progress that are left if no guard fails (R87, R97). -/
def State.stepsLeft (s : State) : Nat :=
  match s.phase with
  | .idle => 0
  | .wRdold => s.size + 4
  | .wPlace => s.size + 3
  | .wPayload => s.size - s.idx + 2
  | .wLead => 2
  | .wTrail => 1
  | .rFold => s.size - s.idx + s.size + 2
  | .rLead => s.size + 2
  | .rTrail => s.size + 1
  | .rCopy => s.size - s.idx

/-- A record has a payload byte, so the longer bound of the two commands is an RDREC's. -/
theorem stepsLeft_le (hinv : s.Inv) (hb : s.phase ≠ .idle) : s.stepsLeft ≤ 2 * s.size + 3 := by
  obtain ⟨hl, -, -⟩ := inv_busy hinv hb
  have hpos := (legalOperands_iff.mp hl).1
  rw [State.stepsLeft]
  cases s.phase <;> dsimp only <;> omega

/-- A command goes on with fewer micro-steps left, as the command that it is, and the destination keeps its length. -/
theorem microStep_progress (hinv : s.Inv) (hb : s.phase ≠ .idle) (h : microStep s = .next t) :
    t.stepsLeft < s.stepsLeft ∧ t.dst.length = s.dst.length ∧
      (t.phase ∈ [Phase.wRdold, .wPlace, .wPayload, .wLead, .wTrail] →
        s.phase ∈ [Phase.wRdold, .wPlace, .wPayload, .wLead, .wTrail]) ∧
      (t.phase ∈ [Phase.rFold, .rLead, .rTrail, .rCopy] → s.phase ∈ [Phase.rFold, .rLead, .rTrail, .rCopy]) := by
  obtain ⟨-, hidx, hloop⟩ := inv_busy hinv hb
  rw [microStep] at h
  cases hp : s.phase <;> simp only [hp] at h
  case idle => exact absurd hp hb
  case wRdold =>
    obtain ⟨-, rfl⟩ := microWRdold_next h
    simp [State.stepsLeft, hp]
  case wPlace =>
    obtain ⟨-, rfl⟩ := microWPlace_next h
    simp [State.stepsLeft, hp]
  case wPayload =>
    obtain ⟨b, -, -, rfl⟩ := microWPayload_next h
    have := hloop (.inl hp)
    by_cases hlast : s.idx + 1 = s.size <;> simp [State.stepsLeft, hp, hlast] <;> omega
  case wLead =>
    obtain ⟨-, rfl⟩ := microWLead_next h
    simp [State.stepsLeft, hp]
  case wTrail =>
    obtain ⟨-, rfl⟩ := microWTrail_next h
    simp [State.stepsLeft, hp]
  case rFold =>
    obtain ⟨-, rfl⟩ := microRFold_next h
    have := hloop (.inr (.inl hp))
    by_cases hlast : s.idx + 1 = s.size <;> simp [State.stepsLeft, hp, hlast] <;> omega
  case rLead => obtain ⟨-, ⟨-, rfl⟩ | ⟨-, rfl⟩⟩ := microRLead_next h <;> simp [State.stepsLeft, hp]
  case rTrail => obtain ⟨-, ⟨-, rfl⟩ | ⟨-, rfl⟩⟩ := microRTrail_next h <;> simp [State.stepsLeft, hp]
  case rCopy =>
    obtain ⟨-, -, rfl⟩ := microRCopy_next h
    have := hloop (.inr (.inr hp))
    by_cases hlast : s.idx + 1 = s.size <;> simp [State.stepsLeft, hp, hlast] <;> omega

/-- A core inside the host's contract, with power on (R126, R129). -/
def State.Underway (s : State) : Prop :=
  s.Inv ∧ s.powerCuts = [] ∧ s.RecordFits s.addr s.size ∧ s.BuffersServeCommand

theorem State.Underway.completes (h : s.Underway) (hb : s.phase ≠ .idle) : ∃ t, microStep s = .next t := by
  obtain ⟨hinv, -, hfits, hsrc, hdst⟩ := h
  obtain ⟨-, -, hloop⟩ := inv_busy hinv hb
  refine microStep_completes (fun a ha => ?_) (fun hp => ?_) (fun hp => ?_)
  · obtain ⟨-, hlast⟩ := nextStoreAddress_inRecord hinv ha
    exact Nat.lt_of_le_of_lt hlast hfits
  · exact Nat.lt_of_lt_of_le (hloop (.inl hp)) (hsrc (by simp [hp]))
  · exact Nat.lt_of_lt_of_le (hloop (.inr (.inr hp))) (hdst (by simp [hp]))

theorem State.Underway.microStep (h : s.Underway) (hb : s.phase ≠ .idle) (hs : microStep s = .next t) : t.Underway := by
  obtain ⟨hinv, hc, hfits, hsrc, hdst⟩ := h
  obtain ⟨-, hlength, hwrite, hread⟩ := microStep_progress hinv hb hs
  have he := microStep_effect hb hs
  refine ⟨microStep_keeps_inv hinv hb hs, he.powerCuts.trans hc, ?_, fun hp => ?_, fun hp => ?_⟩
  · rw [State.RecordFits, he.addr, he.size, he.params]
    exact hfits
  · rw [he.size, he.src]
    exact hsrc (hwrite hp)
  · rw [he.size, hlength]
    exact hdst (hread hp)

/-- A command ends with its one response: the last micro-step responds and no other does. -/
theorem State.Underway.ends {k : Nat} (h : s.Underway) (hb : s.phase ≠ .idle) (hk : s.stepsLeft ≤ k) :
    ∃ j t, j ≤ k ∧ runSteps j s = .next t ∧ t.phase = .idle ∧ t.hostMoves = s.hostMoves ∧
      ∃ r, t.responses = s.responses ++ [r] := by
  induction k generalizing s with
  | zero =>
    obtain ⟨t, ht⟩ := h.completes hb
    obtain ⟨hinv, -⟩ := h
    obtain ⟨hless, -⟩ := microStep_progress hinv hb ht
    omega
  | succ k ih =>
    obtain ⟨t, ht⟩ := h.completes hb
    have ht' := h.microStep hb ht
    have he := microStep_effect hb ht
    obtain ⟨hinv, hc, -⟩ := h
    have hstep : step s = .next t := (step_busy_no_cuts hc hb).trans ht
    obtain ⟨hbusy, hsilent⟩ | ⟨hidle, st, -, hr⟩ := he.responses
    · obtain ⟨hless, -⟩ := microStep_progress hinv hb ht
      obtain ⟨j, u, hj, hrun, hu, hmoves, hr⟩ := ih ht' hbusy (by omega)
      rw [hsilent] at hr
      exact ⟨j + 1, u, Nat.succ_le_succ hj, (runSteps_succ hstep).trans hrun, hu, hmoves.trans he.hostMoves, hr⟩
    · exact ⟨1, t, Nat.succ_pos k, runSteps_succ hstep, hidle, he.hostMoves, _, hr⟩

/-- Settles O54: the count of micro-steps left is within the bound from the start. -/
theorem everyCommandEnds : Obligations.EveryCommandEnds :=
  fun _ hinv hb hc hfits hserve => State.Underway.ends ⟨hinv, hc, hfits, hserve⟩ hb (stepsLeft_le hinv hb)

end Sys2Proof.Machine
end

section
/-! What no step depends on (10_state.md sections 4, 8 and 9): the record of earlier responses and accesses, the list of power losses
to come beyond its own step, and the data registers that are stale. Each is a change of the state that the core does not see
(`Unseen`), so that it can be made before a micro-step or after it. -/

namespace Sys2Proof.Machine

variable {s t : State} {f : State → State} {a i : Nat} {v b : Byte}

/-- `f` after a step that answers a next state. -/
def mapNext (f : State → State) : Step → Step
  | .next s => .next (f s)
  | .fault x => .fault x
  | .refused r => .refused r

theorem mapNext_eq_next {x : Step} (h : mapNext f x = .next t) : ∃ u, x = .next u ∧ t = f u := by
  cases x with
  | next u => exact ⟨u, rfl, (Host.Outcome.next.inj h).symm⟩
  | fault x => exact nomatch x
  | refused r => cases h

/-! ## Changes that the core does not see -/

/-- A change that touches nothing a micro-step reads but TMP, and that can be made before or after any update but the latch. -/
structure Unseen (f : State → State) : Prop where
  phase : ∀ s, (f s).phase = s.phase
  acc : ∀ s, (f s).acc = s.acc
  addr : ∀ s, (f s).addr = s.addr
  size : ∀ s, (f s).size = s.size
  idx : ∀ s, (f s).idx = s.idx
  store : ∀ s, (f s).store = s.store
  src : ∀ s, (f s).src = s.src
  dst : ∀ s, (f s).dst = s.dst
  params : ∀ s, (f s).params = s.params
  enter : ∀ s p, (f s).enter p = f (s.enter p)
  fold : ∀ s b, (f s).fold b = f (s.fold b)
  advance : ∀ s, (f s).advance = f s.advance
  rewind : ∀ s, (f s).rewind = f s.rewind
  note : ∀ s e, (f s).note e = f (s.note e)
  putStore : ∀ s m, (f s).putStore m = f (s.putStore m)
  putDst : ∀ s bs, (f s).putDst bs = f (s.putDst bs)
  respond : ∀ s st r, (f s).respond st r = f (s.respond st r)

namespace Unseen

variable (hf : Unseen f)
include hf

theorem readStore_eq {k l : Byte → State → Step} (hk : ∀ v u, l v (f u) = mapNext f (k v u)) :
    readStore a (f s) l = mapNext f (readStore a s k) := by
  simp only [readStore, hf.params, hf.store, hf.note, hk]
  split <;> rfl

theorem writeStore_eq {k l : State → Step} (hk : ∀ u, l (f u) = mapNext f (k u)) :
    writeStore a v (f s) l = mapNext f (writeStore a v s k) := by
  simp only [writeStore, hf.params, hf.store, hf.putStore, hf.note, hk]
  split <;> rfl

theorem readSource_eq {k l : Byte → State → Step} (hk : ∀ v u, l v (f u) = mapNext f (k v u)) :
    readSource i (f s) l = mapNext f (readSource i s k) := by
  simp only [readSource, hf.src, hf.note, hk]
  split <;> rfl

theorem writeDest_eq {k l : State → Step} (hk : ∀ u, l (f u) = mapNext f (k u)) :
    writeDest i v (f s) l = mapNext f (writeDest i v s k) := by
  simp only [writeDest, hf.dst, hf.putDst, hf.note, hk]
  split <;> rfl

theorem failVerify_eq (kind : MismatchKind) : failVerify kind (f s) = mapNext f (failVerify kind s) := by
  rw [failVerify, hf.respond, hf.enter]
  rfl

/-- A micro-step does the same with the change made before it as after it; W_PLACE reads TMP, and W_RDOLD latches it. -/
theorem microStep_eq (htmp : s.phase = .wPlace → (f s).tmp = s.tmp)
    (hlatch : s.phase = .wRdold → ∀ u b, (f u).latch b = f (u.latch b)) : microStep (f s) = mapNext f (microStep s) := by
  rw [microStep, microStep, hf.phase]
  cases hp : s.phase <;> dsimp only
  case idle => rfl
  case wRdold =>
    rw [microWRdold, hf.addr]
    exact hf.readStore_eq fun b u => by rw [hlatch hp, hf.enter]; rfl
  case wPlace =>
    rw [microWPlace, hf.addr, hf.size, htmp hp]
    exact hf.writeStore_eq fun u => by rw [hf.enter]; rfl
  case wPayload =>
    rw [microWPayload, hf.idx]
    refine hf.readSource_eq fun b u => ?_
    rw [hf.addr, hf.idx]
    exact hf.writeStore_eq fun u => by rw [hf.fold, hf.advance, hf.enter, hf.idx, hf.size]; rfl
  case wLead =>
    rw [microWLead, hf.addr, hf.acc]
    exact hf.writeStore_eq fun u => by rw [hf.enter]; rfl
  case wTrail =>
    rw [microWTrail, hf.addr, hf.size, hf.acc]
    exact hf.writeStore_eq fun u => by rw [hf.respond, hf.enter]; rfl
  case rFold =>
    rw [microRFold, hf.addr, hf.idx]
    exact hf.readStore_eq fun b u => by rw [hf.fold, hf.advance, hf.enter, hf.idx, hf.size]; rfl
  case rLead =>
    rw [microRLead, hf.addr]
    refine hf.readStore_eq fun b u => ?_
    rw [hf.acc, hf.enter, hf.failVerify_eq]
    split <;> rfl
  case rTrail =>
    rw [microRTrail, hf.addr, hf.size]
    refine hf.readStore_eq fun b u => ?_
    rw [hf.acc, hf.rewind, hf.enter, hf.failVerify_eq]
    split <;> rfl
  case rCopy =>
    rw [microRCopy, hf.addr, hf.idx]
    refine hf.readStore_eq fun b u => ?_
    rw [hf.idx]
    refine hf.writeDest_eq fun u => ?_
    rw [hf.idx, hf.size, hf.advance, hf.respond, hf.enter]
    split <;> rfl

end Unseen

/-! ## Earlier responses and accesses, and later power losses -/

/-- The state with `rs` and `hs` recorded before its own responses and accesses, and the power losses `cs` to come. -/
def State.inContext (rs : List ResponseWord) (hs : List Access) (cs : List PowerCut) (s : State) : State :=
  { s with responses := rs ++ s.responses, history := hs ++ s.history, powerCuts := cs }

variable {rs : List ResponseWord} {hs : List Access} {cs : List PowerCut}

theorem inContext_unseen (rs : List ResponseWord) (hs : List Access) (cs : List PowerCut) :
    Unseen (State.inContext rs hs cs) where
  phase _ := rfl
  acc _ := rfl
  addr _ := rfl
  size _ := rfl
  idx _ := rfl
  store _ := rfl
  src _ := rfl
  dst _ := rfl
  params _ := rfl
  enter _ _ := rfl
  fold _ _ := rfl
  advance _ := rfl
  rewind _ := rfl
  note s e := by simp [State.inContext, State.note]
  putStore _ _ := rfl
  putDst _ _ := rfl
  respond s st r := by simp [State.inContext, State.respond]

theorem exec_inContext (h : s.phase = .idle) (j : Instr) :
    exec j (s.inContext rs hs cs) = mapNext (State.inContext rs hs cs) (exec j s) := by
  obtain ⟨st, r, -, he⟩ | ⟨a, n, p, -, -, he⟩ := exec_idle_cases s.params.widths j
  · rw [he s h rfl, he (s.inContext rs hs cs) h rfl, (inContext_unseen rs hs cs).respond]
    rfl
  · rw [he s h rfl, he (s.inContext rs hs cs) h rfl]
    rfl

/-- A powered step does not depend on what was recorded before it, nor on the power losses to come. -/
theorem poweredStep_inContext :
    poweredStep (s.inContext rs hs cs) = mapNext (State.inContext rs hs cs) (poweredStep s) := by
  by_cases hi : s.phase = .idle
  · have hc : (s.inContext rs hs cs).phase = .idle := hi
    obtain ⟨w, ms, hm, hs⟩ | ⟨bs, ms, hm, hs⟩ | ⟨bs, ms, hm, hs⟩ | ⟨hm, hs⟩ := poweredStep_idle_cases hi
    · rw [hs, poweredStep_issue hc hm]
      exact exec_inContext (s := s.putMoves ms) hi _
    · rw [hs, poweredStep_setSource hc hm]
      rfl
    · rw [hs, poweredStep_setDest hc hm]
      rfl
    · rw [hs, poweredStep_waiting hc hm]
      rfl
  · rw [poweredStep_busy hi, poweredStep_busy (s := s.inContext rs hs cs) hi]
    exact (inContext_unseen rs hs cs).microStep_eq (fun _ => rfl) fun _ _ _ => rfl

/-- The state without its records of responses and accesses. -/
def State.unrecorded (s : State) : State := { s with responses := [], history := [] }

theorem inContext_unrecorded (s : State) (cs : List PowerCut) :
    s.unrecorded.inContext s.responses s.history cs = s.putCuts cs := by
  simp [State.inContext, State.unrecorded, State.putCuts]

/-- A powered step with other records before it adds the same to them. -/
theorem poweredStep_other_records (h : poweredStep (s.putCuts cs) = .next t) :
    poweredStep (s.unrecorded.inContext rs hs cs) = .next { t with
      responses := rs ++ t.responses.drop s.responses.length, history := hs ++ t.history.drop s.history.length } := by
  rw [← inContext_unrecorded, poweredStep_inContext] at h
  obtain ⟨u, hu, rfl⟩ := mapNext_eq_next h
  rw [poweredStep_inContext, hu]
  simp [mapNext, State.inContext]

/-- The state with other records of responses and accesses. -/
def State.withRecords (s : State) (rs : List ResponseWord) (hs : List Access) : State :=
  { s with responses := rs, history := hs }

theorem withRecords_putCuts (s : State) (rs : List ResponseWord) (hs : List Access) (cs : List PowerCut) :
    (s.withRecords rs hs).putCuts cs = s.unrecorded.inContext rs hs cs := by
  simp [State.withRecords, State.inContext, State.unrecorded, State.putCuts]

theorem powerLoss_other_records (torn : Option Byte) :
    powerLoss torn ((s.withRecords rs hs).putCuts cs) = (powerLoss torn (s.putCuts cs)).withRecords
      (rs ++ (powerLoss torn (s.putCuts cs)).responses.drop s.responses.length)
      (hs ++ (powerLoss torn (s.putCuts cs)).history.drop s.history.length) := by
  simp only [powerLoss_responses, powerLoss_history, putCuts_responses, putCuts_history, List.drop_length, List.append_nil]
  rfl

/-- Settles O50: a power loss adds nothing to the records, and a powered step adds the same. -/
theorem earlierOutcomesDoNotMatter : Obligations.EarlierOutcomesDoNotMatter := by
  intro s t rs hs h
  change step (s.withRecords rs hs) = _
  rcases hc : s.powerCuts with _ | ⟨⟨n, torn⟩, cs⟩
  · have hnone (u : State) (hu : u.powerCuts = []) : u = u.putCuts [] := by rw [State.putCuts, ← hu]
    rw [step_no_cuts hc, hnone s hc] at h
    rw [step_no_cuts (s := s.withRecords rs hs) hc, hnone (s.withRecords rs hs) hc, withRecords_putCuts]
    exact poweredStep_other_records h
  · cases n with
    | zero =>
      rw [step_cut_now hc] at h
      obtain rfl := Host.Outcome.next.inj h
      rw [step_cut_now (s := s.withRecords rs hs) hc, powerLoss_other_records]
      rfl
    | succ n =>
      rw [step_cut_later hc] at h
      rw [step_cut_later (s := s.withRecords rs hs) hc, withRecords_putCuts]
      exact poweredStep_other_records h

/-! ## Stale registers (R15, R24) -/

theorem latch_unseen (b : Byte) : Unseen (·.latch b) where
  phase _ := rfl
  acc _ := rfl
  addr _ := rfl
  size _ := rfl
  idx _ := rfl
  store _ := rfl
  src _ := rfl
  dst _ := rfl
  params _ := rfl
  enter _ _ := rfl
  fold _ _ := rfl
  advance _ := rfl
  rewind _ := rfl
  note _ _ := rfl
  putStore _ _ := rfl
  putDst _ _ := rfl
  respond _ _ _ := rfl

/-- The state with the data registers of `t`. -/
def State.withRegistersOf (s t : State) : State :=
  { s with acc := t.acc, addr := t.addr, size := t.size, idx := t.idx, tmp := t.tmp }

theorem sameLive_refl (s : State) : SameLive s s :=
  ⟨rfl, rfl, rfl, rfl, rfl, rfl, rfl, rfl, rfl, rfl, fun _ => ⟨rfl, rfl, rfl, rfl⟩, fun _ => rfl⟩

theorem sameLive_withRegistersOf (h : s.phase = .idle) (t : State) : SameLive s (s.withRegistersOf t) :=
  ⟨rfl, rfl, rfl, rfl, rfl, rfl, rfl, rfl, rfl, rfl, fun hb => absurd h hb, fun hp => absurd (h.symm.trans hp) nofun⟩

theorem sameLive_latch (h : s.phase ≠ .wPlace) (b : Byte) : SameLive s (s.latch b) :=
  ⟨rfl, rfl, rfl, rfl, rfl, rfl, rfl, rfl, rfl, rfl, fun _ => ⟨rfl, rfl, rfl, rfl⟩, fun hp => absurd hp h⟩

/-- Two states of one phase that differ in stale registers only: in all five of them in IDLE, in TMP during a command. -/
theorem SameLive.cases (h : SameLive s t) :
    (s.phase = .idle ∧ t = s.withRegistersOf t) ∨ (s.phase ≠ .idle ∧ s.phase ≠ .wPlace ∧ t = s.latch t.tmp) ∨
      (s.phase = .wPlace ∧ t = s) := by
  obtain ⟨hphase, hstore, hsrc, hdst, hresponses, hhistory, hmoves, hcuts, hdraws, hparams, hlive, htmp⟩ := h
  by_cases hi : s.phase = .idle
  · refine .inl ⟨hi, ?_⟩
    rw [State.withRegistersOf, hphase, hstore, hsrc, hdst, hresponses, hhistory, hmoves, hcuts, hdraws, hparams]
  · obtain ⟨hacc, haddr, hsize, hidx⟩ := hlive hi
    have hlatch : t = s.latch t.tmp := by
      rw [State.latch, hphase, hacc, haddr, hsize, hidx, hstore, hsrc, hdst, hresponses, hhistory, hmoves, hcuts, hdraws,
        hparams]
    by_cases hp : s.phase = .wPlace
    · refine .inr (.inr ⟨hp, hlatch.trans ?_⟩)
      rw [State.latch, ← htmp hp]
    · exact .inr (.inl ⟨hi, hp, hlatch⟩)

theorem SameLive.putCuts (h : SameLive s t) (cs : List PowerCut) : SameLive (s.putCuts cs) (t.putCuts cs) := by
  obtain ⟨hi, ht⟩ | ⟨-, hp, ht⟩ | ⟨-, ht⟩ := h.cases <;> rw [ht]
  · exact sameLive_withRegistersOf (s := s.putCuts cs) hi t
  · exact sameLive_latch (s := s.putCuts cs) hp _
  · exact sameLive_refl _

/-- A power loss draws every register afresh, and no stale register says which cell is being written. -/
theorem SameLive.powerLoss_eq (h : SameLive s t) (torn : Option Byte) : powerLoss torn s = powerLoss torn t := by
  obtain ⟨hi, ht⟩ | ⟨-, -, ht⟩ | ⟨-, ht⟩ := h.cases <;> rw [ht]
  · have hnone (u : State) (hu : u.phase = .idle) : u.storeAfterCut torn = u.store :=
      storeAfterCut_unspoiled (.inr (.inr (cellBeingWritten_eq_none (by simp [hu]))))
    rw [powerLoss, powerLoss, hnone s hi, hnone (s.withRegistersOf t) hi]
    rfl
  · rfl

/-- The answer to a command leaves the registers as stale as they were; its acceptance writes all but TMP. -/
theorem exec_sameLive (h : s.phase = .idle) (t : State) (j : Instr) :
    SameLiveOutcome (exec j s) (exec j (s.withRegistersOf t)) := by
  obtain ⟨st, r, -, he⟩ | ⟨a, n, p, hp, -, he⟩ := exec_idle_cases s.params.widths j
  · rw [he s h rfl, he (s.withRegistersOf t) h rfl]
    exact sameLive_withRegistersOf (s := s.respond st r) h t
  · rw [he s h rfl, he (s.withRegistersOf t) h rfl]
    have hplace : p ≠ .wPlace := by
      rintro rfl
      simp at hp
    exact sameLive_latch (s := s.accept a n p) hplace t.tmp

theorem sameLiveOutcome_refl (x : Step) : SameLiveOutcome x x := by
  cases x with
  | next s => exact sameLive_refl s
  | fault f => trivial
  | refused r => rfl

/-- TMP is latched before W_PLACE is entered, so a stale TMP reaches no micro-step that reads it. -/
theorem microStep_latch_sameLive (hb : s.phase ≠ .idle) (hp : s.phase ≠ .wPlace) (b : Byte) :
    SameLiveOutcome (microStep s) (microStep (s.latch b)) := by
  by_cases hread : s.phase = .wRdold
  · have hsame : microStep (s.latch b) = microStep s := by
      rw [microStep, microStep, latch_phase, hread]
      rfl
    rw [hsame]
    exact sameLiveOutcome_refl _
  · rw [(latch_unseen b).microStep_eq (fun h => absurd h hp) fun h => absurd h hread]
    cases hs : microStep s with
    | next u => exact sameLive_latch (fun hu => hread ((microStep_effect hb hs).place hu)) b
    | fault f => trivial
    | refused r => rfl

theorem poweredStep_sameLive (h : SameLive s t) : SameLiveOutcome (poweredStep s) (poweredStep t) := by
  obtain ⟨hi, ht⟩ | ⟨hb, hp, ht⟩ | ⟨-, ht⟩ := h.cases <;> rw [ht]
  · have hi' : (s.withRegistersOf t).phase = .idle := hi
    obtain ⟨w, ms, hm, hs⟩ | ⟨bs, ms, hm, hs⟩ | ⟨bs, ms, hm, hs⟩ | ⟨hm, hs⟩ := poweredStep_idle_cases hi
    · rw [hs, poweredStep_issue hi' hm]
      exact exec_sameLive (s := s.putMoves ms) hi t _
    · rw [hs, poweredStep_setSource hi' hm]
      exact sameLive_withRegistersOf (s := (s.putSrc bs).putMoves ms) hi t
    · rw [hs, poweredStep_setDest hi' hm]
      exact sameLive_withRegistersOf (s := (s.putDst bs).putMoves ms) hi t
    · rw [hs, poweredStep_waiting hi' hm]
      exact sameLive_withRegistersOf hi t
  · rw [poweredStep_busy hb, poweredStep_busy (s := s.latch t.tmp) hb]
    exact microStep_latch_sameLive hb hp t.tmp
  · exact sameLiveOutcome_refl _

/-- Settles O49: the two states have the same power losses to come, and either step takes them in the same sense. -/
theorem staleRegistersNeverShow : Obligations.StaleRegistersNeverShow := by
  intro s t h
  have hcuts : s.powerCuts = t.powerCuts := by
    obtain ⟨-, -, -, -, -, -, -, hcuts, -⟩ := h
    exact hcuts
  rcases hc : s.powerCuts with _ | ⟨⟨n, torn⟩, cs⟩ <;> have hc' := hcuts.symm.trans hc
  · rw [step_no_cuts hc, step_no_cuts hc']
    exact poweredStep_sameLive h
  · cases n with
    | zero =>
      rw [step_cut_now hc, step_cut_now hc', (h.putCuts cs).powerLoss_eq]
      exact sameLiveOutcome_refl _
    | succ n =>
      rw [step_cut_later hc, step_cut_later hc']
      exact poweredStep_sameLive (h.putCuts _)

end Sys2Proof.Machine
end

section
/-! The checksum of a sequence and of the same sequence changed (95_test_vectors.md V4, 70_reset_and_hazards.md section 5), and the
CRCUPD command (40_crc8_engine.md section 3). All of it rests on R71: the step is injective in its accumulator and in its input, and
takes equal bytes to zero. -/

namespace Sys2Proof.Machine

/-! ## Sequences -/

theorem crc8_zeros_append (n : Nat) (bs : List Byte) : crc8 (List.replicate n 0 ++ bs) = crc8 bs := by
  induction n with
  | zero => rfl
  | succ n ih => exact (congrArg (fun a => (List.replicate n 0 ++ bs).foldl crc8Update a) (crc8Update_self 0)).trans ih

/-- Settles O14: the last step takes the checksum into itself (R71 (d)); a zero byte takes zero to zero. -/
theorem crcOfSequenceAndItsChecksum : Obligations.CrcOfSequenceAndItsChecksum :=
  fun bs n => ⟨(crc8_concat bs _).trans (crc8Update_self _), crc8_zeros_append n bs⟩

/-- What follows a change does not undo it. -/
theorem foldl_crc8Update_injective (bs : List Byte) : Function.Injective fun a => bs.foldl crc8Update a := by
  induction bs with
  | nil => exact Function.injective_id
  | cons b bs ih => exact ih.comp (crc8Update_bijective_left b).injective

/-- Settles O15: the flipped byte changes the accumulator, and the bytes after it keep it changed (R71 (c)). -/
theorem crcDetectsASingleBitFlip : Obligations.CrcDetectsASingleBitFlip := by
  intro bs i hi j hj heq
  have hset (b : Byte) : crc8 (bs.set i b) = (bs.drop (i + 1)).foldl crc8Update (crc8Update (crc8 (bs.take i)) b) := by
    rw [List.set_eq_take_append_cons_drop, if_pos hi, crc8, List.foldl_append]
    rfl
  have hsame : crc8 bs = crc8 (bs.set i bs[i]) := by rw [List.set_getElem_self]
  rw [hsame, hset, hset] at heq
  exact xor_bit_ne hj _ ((crc8Update_bijective_right _).injective (foldl_crc8Update_injective _ heq))

/-! ## CRCUPD (R73) -/

theorem crcupd_word_defaultInstance (acc data : Byte) :
    (0x4000#16 ++ acc ++ data).toNat = encode .defaultInstance (.crcupd acc data) := by
  have hacc := acc.isLt
  have hdata := data.isLt
  rw [BitVec.toNat_append, BitVec.toNat_append, ← Nat.shiftLeft_add_eq_or_of_lt hdata,
    ← Nat.shiftLeft_add_eq_or_of_lt hacc, Nat.shiftLeft_eq, Nat.shiftLeft_eq, encode, defaultInstance_aw,
    defaultInstance_sw, BitVec.toNat_ofNat]
  omega

/-- Settles O16: the command's one step, its word, and what R55 says of the other words with `op = 01`. -/
theorem crcupdResult : Obligations.CrcupdResult := by
  refine ⟨fun acc data s h => exec_crcupd_idle h acc data, fun acc data s h => exec_busy h _, fun acc data => ?_,
    fun cmd s h hop hzero => ?_, crc8Update_self, by decide⟩
  · rw [crcupd_word_defaultInstance, decode_encode_crcupd defaultInstance_legal]
  · exact illegalCommandChangesNothing cmd s h ((legal_eq_false_iff _ _).mpr (.inr (.inl ⟨hop, hzero⟩)))

/-! ## Program text (R61) -/

/-- Settles O55: the six lines, evaluated. -/
theorem programTextAssembles : Obligations.ProgramTextAssembles := rfl

end Sys2Proof.Machine
end

section
/-! Whole commands and more than one of them: an RDREC from its issue to its end (42_read_verify.md section 3), records written and
read back (70_reset_and_hazards.md sections 3 and 5), and the host's CRCFOLD under power losses (30_encoding.md section 7). -/

namespace Sys2Proof.Machine

variable {s t u : State} {a n : Nat}

/-! ## A complete RDREC (R95, R97) -/

section
variable (hq : s.Quiet) (hl : legalOperands s.params.widths a n = true) (hf : s.RecordFits a n)
include hq hl

/-- The acceptance is one step more than the core is busy. -/
theorem runSteps_rdrec {k : Nat} (h : BusyRun k (s.accept a n .rFold) t) :
    runSteps (k + 1) (s.issue (encode s.params.widths (.rdrec a n))) = .next t :=
  (runSteps_succ (step_rdrec_accepted hq hl)).trans h.1

include hf

theorem runSteps_rdrec_valid (hv : ValidRecord s.store a n) (hroom : n ≤ s.dst.length) :
    runSteps (2 * n + 3) (s.issue (encode s.params.widths (.rdrec a n))) = .next (rdrecCopyState s a n n) := by
  have hrun := runSteps_rdrec hq hl (busyRun_rdrec_copy hq hl hf hv hroom (Nat.le_refl n))
  rwa [show n + 2 + n + 1 = 2 * n + 3 by omega] at hrun

theorem runSteps_rdrec_invalid (hv : ¬ValidRecord s.store a n) :
    ∃ k checks, k ≤ n + 3 ∧
      runSteps k (s.issue (encode s.params.widths (.rdrec a n))) = .next (rdrecFailState s a n checks) := by
  obtain ⟨k, checks, hk, hrun⟩ := busyRun_rdrec_invalid hq hl hf hv
  exact ⟨k + 1, checks, Nat.succ_le_succ hk, runSteps_rdrec hq hl hrun⟩

end

/-- Settles O34: a valid record is copied; any other ends at a guard, before a byte is copied. -/
theorem rdrecNetEffect : Obligations.RdrecNetEffect := by
  intro s a n hq hl hf hroom
  by_cases hv : ValidRecord s.store a n
  · exact ⟨_, _, Nat.le_refl _, runSteps_rdrec_valid hq hl hf hv hroom, if_pos rfl, rfl, rfl, rfl, rfl,
      fun _ => ⟨if_pos rfl, rfl⟩, fun hnot => absurd hv hnot⟩
  · obtain ⟨k, checks, hk, hrun⟩ := runSteps_rdrec_invalid hq hl hf hv
    exact ⟨k, _, by omega, hrun, rfl, rfl, rfl, rfl, rfl, fun hyes => absurd hyes hv, fun _ => ⟨rfl, rfl⟩⟩

/-- Settles O35: the three ends of the run, whose states carry their accesses. -/
theorem rdrecAccessList : Obligations.RdrecAccessList := by
  intro s a n hq hl hf hroom
  refine ⟨fun hlead => ?_, fun hlead htrail => ?_, fun hlead htrail => ?_⟩
  · have hrun := runSteps_rdrec hq hl (busyRun_rdrec_lead hq hl hf)
    rw [if_pos hlead] at hrun
    exact ⟨_, hrun, rfl, List.append_assoc .., rfl⟩
  · have hrun := runSteps_rdrec hq hl (busyRun_rdrec_trail hq hl hf hlead)
    rw [if_pos htrail] at hrun
    refine ⟨_, hrun, rfl, ?_, rfl⟩
    simp [rdrecFailState, rdrecFoldState]
  · refine ⟨_, runSteps_rdrec_valid hq hl hf ⟨hlead, htrail⟩ hroom, if_pos rfl, ?_, if_pos rfl⟩
    simp [rdrecCopyState, rdrecTrailState, rdrecFoldState]

/-! ## Records written and read back -/

/-- A state in which the host presents `w` next is one in which it has issued `w` before its other moves. -/
theorem eq_issue {w : Nat} {ms : List HostMove} (h : s.hostMoves = .issue w :: ms) : s = (s.putMoves ms).issue w := by
  rw [State.issue, putMoves_hostMoves, ← h]
  rfl

/-- The store in which a WRREC ends. -/
theorem wrrecDoneState_valid (hwf : Memory.wf s.store = true) (hn : n ≤ s.src.length) :
    ValidRecord (wrrecDoneState s a n).store a n ∧ payloadOf (wrrecDoneState s a n).store a n = s.src.take n := by
  have hlen : (s.src.take n).length = n := List.length_take_of_le hn
  have hvalid := recordStored_valid hwf a (s.src.take n)
  have hpayload := payloadOf_recordStored hwf a (s.src.take n)
  rw [hlen] at hvalid hpayload
  exact ⟨hvalid, hpayload⟩

/-- Settles O39: the read finds the record that the write made. -/
theorem writeThenReadRoundTrip : Obligations.WriteThenReadRoundTrip := by
  intro s a n ms hq hwf hl hf hsrc hdst hm
  have hwrite := runSteps_wrrec_done (s := s.putMoves (.issue (encode s.params.widths (.rdrec a n)) :: ms))
    ⟨hq, hwf, hl, hf⟩ hsrc
  rw [putMoves_params, ← eq_issue hm] at hwrite
  obtain ⟨hvalid, hpayload⟩ := wrrecDoneState_valid (s := s) (a := a) hwf hsrc
  have hread := runSteps_rdrec_valid (s := wrrecDoneState (s.putMoves ms) a n) ⟨rfl, hq.2⟩ hl hf hvalid hdst
  refine ⟨_, _, (runSteps_add hwrite).trans hread, if_pos rfl, rfl, ?_, congrArg (· ++ s.dst.drop n) hpayload⟩
  exact (if_pos rfl).trans (List.append_assoc ..)

/-- Settles O40: the record with a bit flipped is not valid, and the read of it fails. -/
theorem singleBitFlipIsDetected : Obligations.SingleBitFlipIsDetected := by
  intro s a n x j hq hwf hl hf hv hx hj
  obtain ⟨k, checks, -, hrun⟩ := runSteps_rdrec_invalid (s := s.flipBit x j) hq hl hf (flipBit_not_valid hwf hv hx hj)
  exact ⟨k, _, hrun, rfl, rfl, rfl, rfl⟩

/-- Settles O41: a WRREC writes no cell of a record on a disjoint range. -/
theorem disjointRecordsAreIndependent : Obligations.DisjointRecordsAreIndependent := by
  intro s a n b m hq hwf hl hf hn hd hv
  have hlen : (s.src.take n).length = n := List.length_take_of_le hn
  have hcells : ∀ x, InRecord b m x → Memory.read (wrrecDoneState s a n).store x = Memory.read s.store x :=
    fun x hx => read_recordStored_outside (by omega)
  obtain ⟨hvalid, -⟩ := wrrecDoneState_valid (s := s) (a := a) hwf hn
  exact ⟨_, runSteps_wrrec_done ⟨hq, hwf, hl, hf⟩ hn, validRecord_of_agree hcells hv,
    payloadOf_congr fun i hi => hcells (b + 1 + i) (by omega), hvalid⟩

/-! ## CRCFOLD under power losses (R62, log entry 23) -/

theorem SameButPower.trans (h : SameButPower s t) (h' : SameButPower t u) : SameButPower s u := by
  obtain ⟨h1, h2, h3, h4, h5, h6, h7, h8⟩ := h
  obtain ⟨g1, g2, g3, g4, g5, g6, g7, g8⟩ := h'
  exact ⟨g1.trans h1, g2.trans h2, g3.trans h3, g4.trans h4, g5.trans h5, g6.trans h6, g7.trans h7, g8.trans h8⟩

theorem SameButPower.append_responses (h : SameButPower s t) (rs : List ResponseWord) :
    SameButPower { s with responses := s.responses ++ rs } { t with responses := t.responses ++ rs } := by
  obtain ⟨hphase, hstore, hsrc, hdst, hresponses, hhistory, hmoves, hparams⟩ := h
  exact ⟨hphase, hstore, hsrc, hdst, congrArg (· ++ rs) hresponses, hhistory, hmoves, hparams⟩

/-- The word is taken within the host's patience whatever power losses come first, and then answered at once. -/
theorem issueAndWait_crcupd_idle (hW : s.params.widths.Legal) (hi : s.phase = .idle) (acc data : Byte) :
    ∃ t, issueAndWait (.crcupd acc data) s = .next t ∧ SameButPower (s.respond .ok (crc8Update acc data)) t := by
  have hexec (v : State) (hv : v.phase = .idle) :
      exec (decode s.params.widths (encode s.params.widths (.crcupd acc data))) v =
        .next (v.respond .ok (crc8Update acc data)) := by
    rw [decode_encode_crcupd hW, exec_crcupd_idle hv]
  obtain ⟨u, v, hu, hv, htaken⟩ := stepUntilTaken_idle (s := s.issue (encode s.params.widths (.crcupd acc data)))
    (fuel := stepsToTake s) hi rfl (by rw [stepsToTake, issue_powerCuts]; omega)
    (fun u v _ hm hx => (exec_hostMoves hx).trans hm) (fun u hu => ⟨_, hexec u hu⟩)
  have hidle : u.phase = .idle := by
    obtain ⟨hphase, -⟩ := hu
    exact hphase.trans hi
  obtain rfl : u.respond .ok (crc8Update acc data) = v := Host.Outcome.next.inj ((hexec u hidle).symm.trans hv)
  exact ⟨_, htaken, SameButPower.append_responses (s := s) hu _⟩

theorem SameButPower.lastResult_eq (h : SameButPower s t) : lastResult t = lastResult s := by
  obtain ⟨-, -, -, -, hresponses, -⟩ := h
  rw [lastResult, lastResult, hresponses]

/-- CRCFOLD from an idle core: what `crcFold_quiet` says, but for what the power losses change. -/
theorem crcFold_idle (bs : List Byte) (r : Byte) (hW : s.params.widths.Legal) (hi : s.phase = .idle) :
    ∃ t, crcFold bs r s = .next (t, bs.foldl crc8Update r) ∧
      SameButPower { s with responses := s.responses ++ foldResponses r bs } t := by
  induction bs generalizing r s with
  | nil =>
    refine ⟨s, rfl, rfl, rfl, rfl, rfl, ?_, rfl, rfl, rfl⟩
    rw [foldResponses_nil, List.append_nil]
  | cons b bs ih =>
    obtain ⟨u, hu, hsame⟩ := issueAndWait_crcupd_idle hW hi r b
    have hlast : lastResult u = crc8Update r b := hsame.lastResult_eq.trans (lastResult_respond ..)
    have hmore := hsame.append_responses (foldResponses (crc8Update r b) bs)
    obtain ⟨hphase, -, -, -, -, -, -, hparams⟩ := hsame
    obtain ⟨t, ht, hrest⟩ := ih (s := u) (crc8Update r b) (hparams ▸ hW) (hphase.trans hi)
    refine ⟨t, (crcFold_cons bs hu).trans (hlast ▸ ht), ?_⟩
    rw [foldResponses_cons, List.append_cons]
    exact hmore.trans hrest

/-- Settles O56: the case of `crcFold_idle` that starts from R72's `0x00`. -/
theorem crcFoldOutlastsPowerLosses : Obligations.CrcFoldOutlastsPowerLosses := by
  intro bs s hW hi
  obtain ⟨t, ht, hphase, hstore, hsrc, hdst, hresponses, hhistory, hmoves, -⟩ := crcFold_idle bs 0x00 hW hi
  exact ⟨t, ht, hphase.trans hi, hresponses, hstore, hsrc, hdst, hmoves, hhistory⟩

end Sys2Proof.Machine
end

section
/-! The crash windows of a WRREC (70_reset_and_hazards.md section 4): the store after any number of its writes, row by row, as the
states of the run have it; that power lost there leaves just that store under atomic byte writes; and what an RDREC makes of it. -/

namespace Sys2Proof.Machine

variable {s t u : State} {m m' : Memory} {src p : List Byte} {torn : Option Byte} {a n i j k x : Nat}

/-! ## The rows of the table -/

/-- Row `k` of the crash-window table: the store `m'` after `k` of the `n + 3` writes of a WRREC that found the store `m`, the first
of them the placeholder, the last two the guards. -/
def CrashRow (m m' : Memory) (src : List Byte) (a n k : Nat) : Prop :=
  Memory.read m' a = (if k ≤ n + 1 then Memory.read m a else crc8 (src.take n)) ∧
    (∀ i (_ : i < n) (hs : i < src.length), Memory.read m' (a + 1 + i) =
      if i + 2 ≤ k then src[i] else Memory.read m (a + 1 + i)) ∧
    Memory.read m' (a + n + 1) =
      (if k = 0 then Memory.read m (a + n + 1) else if k ≤ n + 2 then Memory.read m a else ~~~(crc8 (src.take n))) ∧
    (∀ x, ¬InRecord a n x → Memory.read m' x = Memory.read m x)

theorem crashRow_zero (m : Memory) (src : List Byte) (a n : Nat) : CrashRow m m src a n 0 :=
  ⟨rfl, fun _ _ _ => rfl, rfl, fun _ _ => rfl⟩

theorem read_payloadStored (h : Memory.wf m = true) (hi : i < p.length) :
    Memory.read (payloadStored m a p) (a + 1 + i) = p[i] := by
  have hcell := getElem?_payloadOf hi (payloadStored m a p) a
  rw [payloadOf_payloadStored h, List.getElem?_eq_getElem hi] at hcell
  exact (Option.some.inj hcell).symm

/-- The rows of the placeholder and of the `i` payload bytes after it. -/
theorem crashRow_payload (hwf : Memory.wf m = true) (hn : n ≤ src.length) (hi : i ≤ n) :
    CrashRow m (payloadStored (Memory.write m (a + n + 1) (Memory.read m a)) a (src.take i)) src a n (i + 1) := by
  have hlen : (src.take i).length = i := List.length_take_of_le (Nat.le_trans hi hn)
  have houtside (x : Nat) (hx : x ≤ a ∨ a + i < x) :
      Memory.read (payloadStored (Memory.write m (a + n + 1) (Memory.read m a)) a (src.take i)) x =
        Memory.read (Memory.write m (a + n + 1) (Memory.read m a)) x :=
    read_payloadStored_outside (by rwa [hlen])
  refine ⟨?_, fun l hl hs => ?_, ?_, fun x hx => ?_⟩
  · rw [if_pos (by omega), houtside a (by omega), read_write_other (by omega)]
  · by_cases hwritten : l < i
    · rw [if_pos (by omega), read_payloadStored (write_wf hwf _ _) (hlen.symm ▸ hwritten), List.getElem_take]
    · rw [if_neg (by omega), houtside _ (by omega), read_write_other (by omega)]
  · rw [if_neg (Nat.succ_ne_zero i), if_pos (by omega), houtside _ (by omega), read_write_same hwf]
  · rw [houtside x (by omega), read_write_other (by omega)]

/-- The leading guard makes the last row of the payload the next one. -/
theorem CrashRow.write_lead (hwf : Memory.wf m' = true) (h : CrashRow m m' src a n (n + 1)) :
    CrashRow m (Memory.write m' a (crc8 (src.take n))) src a n (n + 2) := by
  obtain ⟨-, hpayload, htrail, hother⟩ := h
  refine ⟨?_, fun l hl hs => ?_, ?_, fun x hx => ?_⟩
  · rw [if_neg (by omega), read_write_same hwf]
  · rw [if_pos (by omega), read_write_other (by omega), hpayload l hl hs, if_pos (by omega)]
  · rw [if_neg (by omega), if_pos (Nat.le_refl _), read_write_other (by omega), htrail, if_neg (by omega), if_pos (by omega)]
  · rw [read_write_other (by omega), hother x hx]

/-- The trailing guard completes the table. -/
theorem CrashRow.write_trail (hwf : Memory.wf m' = true) (h : CrashRow m m' src a n (n + 2)) :
    CrashRow m (Memory.write m' (a + n + 1) (~~~(crc8 (src.take n)))) src a n (n + 3) := by
  obtain ⟨hlead, hpayload, -, hother⟩ := h
  refine ⟨?_, fun l hl hs => ?_, ?_, fun x hx => ?_⟩
  · rw [if_neg (by omega), read_write_other (by omega), hlead, if_neg (by omega)]
  · rw [if_pos (by omega), read_write_other (by omega), hpayload l hl hs, if_pos (by omega)]
  · rw [if_neg (by omega), if_neg (by omega), read_write_same hwf]
  · rw [read_write_other (by omega), hother x hx]

/-! ## The run of a WRREC, row by row -/

/-- What a WRREC leaves as it was while it runs with no power loss to come. -/
def OutsideWrrec (s u : State) : Prop :=
  u.src = s.src ∧ u.dst = s.dst ∧ u.hostMoves = s.hostMoves ∧ u.params = s.params

theorem runSteps_wrrec_row (hr : s.ReadyFor a n) (hn : n ≤ s.src.length) (hj1 : 1 ≤ j) (hj : j ≤ n + 5) :
    ∃ u, runSteps j (s.issue (encode s.params.widths (.wrrec a n))) = .next u ∧
      CrashRow s.store u.store s.src a n (j - 2) ∧ OutsideWrrec s u ∧
      u.responses = s.responses ++ (if j - 2 = n + 3 then [0x0000#16] else []) := by
  have ⟨_, hwf, _, _⟩ := hr
  have hlen : (s.src.take n).length = n := List.length_take_of_le hn
  have hsilent : ∀ l < n + 5, s.responses = s.responses ++ (if l - 2 = n + 3 then [0x0000#16] else []) := fun l hl => by
    rw [if_neg (by omega), List.append_nil]
  have hpayload := crashRow_payload (a := a) hwf hn (Nat.le_refl n)
  have hpayloadWf : Memory.wf
      (payloadStored (Memory.write s.store (a + n + 1) (Memory.read s.store a)) a (s.src.take n)) = true :=
    payloadStored_wf (write_wf hwf _ _) _ _
  obtain rfl | rfl | ⟨i, hi, rfl⟩ | rfl | rfl := wrrec_row_cases hj1 hj
  · exact ⟨_, runSteps_wrrec_accepted hr, crashRow_zero .., ⟨rfl, rfl, rfl, rfl⟩, hsilent 1 (by omega)⟩
  · exact ⟨_, runSteps_wrrec_leadRead hr, crashRow_zero .., ⟨rfl, rfl, rfl, rfl⟩, hsilent 2 (by omega)⟩
  · exact ⟨_, runSteps_wrrec_payload hr hn hi, crashRow_payload hwf hn hi, ⟨rfl, rfl, rfl, rfl⟩,
      hsilent (i + 3) (by omega)⟩
  · exact ⟨_, runSteps_wrrec_leadWritten hr hn, hpayload.write_lead hpayloadWf, ⟨rfl, rfl, rfl, rfl⟩,
      hsilent (n + 4) (by omega)⟩
  · refine ⟨_, runSteps_wrrec_done hr hn, ?_, ⟨rfl, rfl, rfl, rfl⟩, ?_⟩
    · change CrashRow s.store (recordStored s.store a (s.src.take n)) s.src a n (n + 3)
      rw [recordStored, hlen]
      exact (hpayload.write_lead hpayloadWf).write_trail (write_wf hpayloadWf _ _)
    · rw [if_pos (by omega)]
      rfl

/-! ## The same run with a power loss to come -/

theorem poweredStep_putCuts (cs : List PowerCut) :
    poweredStep (s.putCuts cs) = mapNext (·.putCuts cs) (poweredStep s) := poweredStep_inContext (rs := []) (hs := [])

theorem putCuts_nil (h : s.powerCuts = []) : s.putCuts [] = s := by
  rw [State.putCuts, ← h]

theorem step_powerCuts_nil (hc : s.powerCuts = []) (h : step s = .next t) : t.powerCuts = [] := by
  rw [step_no_cuts hc, ← putCuts_nil hc, poweredStep_putCuts] at h
  obtain ⟨u, -, rfl⟩ := mapNext_eq_next h
  rfl

theorem runSteps_powerCuts_nil (hc : s.powerCuts = []) (h : runSteps j s = .next t) : t.powerCuts = [] := by
  induction j generalizing s with
  | zero =>
    obtain rfl := Host.Outcome.next.inj h
    exact hc
  | succ j ih =>
    cases hs : step s with
    | next u =>
      rw [runSteps_succ hs] at h
      exact ih (step_powerCuts_nil hc hs) h
    | fault f => exact nomatch f
    | refused r =>
      simp only [runSteps, hs] at h
      cases h

/-- Steps before a power loss are the steps without one, counted. -/
theorem runSteps_before_cut (hc : s.powerCuts = []) (h : runSteps j s = .next t) :
    runSteps j (s.putCuts [⟨i + j, torn⟩]) = .next (t.putCuts [⟨i, torn⟩]) := by
  induction j generalizing s with
  | zero =>
    obtain rfl := Host.Outcome.next.inj h
    rfl
  | succ j ih =>
    cases hs : step s with
    | next u =>
      have hcounted : step (s.putCuts [⟨i + j + 1, torn⟩]) = .next (u.putCuts [⟨i + j, torn⟩]) := by
        have hlater := step_cut_later (s := s.putCuts [⟨i + j + 1, torn⟩]) rfl
        refine hlater.trans ((poweredStep_putCuts (s := s) [⟨i + j, torn⟩]).trans ?_)
        rw [← step_no_cuts hc, hs]
        rfl
      rw [runSteps_succ hs] at h
      exact (runSteps_succ hcounted).trans (ih (step_powerCuts_nil hc hs) h)
    | fault f => exact nomatch f
    | refused r =>
      simp only [runSteps, hs] at h
      cases h

/-- The step after them is the power loss. -/
theorem runSteps_through_cut (hc : s.powerCuts = []) (h : runSteps j s = .next t) :
    runSteps (j + 1) (s.putCuts [⟨j, torn⟩]) = .next (powerLoss torn (t.putCuts [])) := by
  have hrun := runSteps_before_cut (i := 0) (torn := torn) hc h
  rw [Nat.zero_add] at hrun
  exact runSteps_snoc hrun (step_cut_now rfl)

/-- What power lost after `j` steps of a WRREC leaves under atomic byte writes (R106): the row of the table that the writes done so
far have reached. -/
theorem runSteps_wrrec_cut (hi : s.phase = .idle) (hc : s.powerCuts = [⟨j, torn⟩]) (hatomic : s.params.tornByte = .atomic)
    (hwf : Memory.wf s.store = true) (hl : legalOperands s.params.widths a n = true) (hf : s.RecordFits a n)
    (hn : n ≤ s.src.length) (hj1 : 1 ≤ j) (hj : j ≤ n + 5) :
    ∃ t, runSteps (j + 1) (s.issue (encode s.params.widths (.wrrec a n))) = .next t ∧ t.phase = .idle ∧ t.powerCuts = [] ∧
      CrashRow s.store t.store s.src a n (j - 2) ∧ OutsideWrrec s t ∧
      t.responses = s.responses ++ (if j - 2 = n + 3 then [0x0000#16] else []) := by
  obtain ⟨u, hrun, hrow, ⟨hsrc, hdst, hmoves, hparams⟩, hr⟩ :=
    runSteps_wrrec_row (s := s.putCuts []) ⟨⟨hi, rfl⟩, hwf, hl, hf⟩ hn hj1 hj
  have hcut := runSteps_through_cut (torn := torn) (by rfl) hrun
  have hissue : ((s.putCuts []).issue (encode s.params.widths (.wrrec a n))).putCuts [⟨j, torn⟩] =
      s.issue (encode s.params.widths (.wrrec a n)) := by
    rw [State.issue, State.issue, State.putCuts, ← hc]
    rfl
  rw [putCuts_params, hissue] at hcut
  refine ⟨_, hcut, rfl, rfl, ?_, ⟨hsrc, hdst, hmoves, hparams⟩, hr⟩
  rw [powerLoss_store, storeAfterCut_unspoiled (.inl (by rw [putCuts_params, hparams, putCuts_params, hatomic]))]
  exact hrow

/-- Settles O43: the row, written out. -/
theorem crashWindowSnapshots : Obligations.CrashWindowSnapshots := by
  intro s a n j torn hi hc hatomic hwf hl hf hn hj1 hj
  obtain ⟨t, hrun, hidle, hcuts, ⟨hlead, hpayload, htrail, hother⟩, ⟨hsrc, hdst, hmoves, -⟩, hr⟩ :=
    runSteps_wrrec_cut hi hc hatomic hwf hl hf hn hj1 hj
  exact ⟨t, hrun, hidle, hr, hsrc, hdst, hmoves, hcuts, hlead, hpayload, htrail, hother⟩

/-! ## What an RDREC makes of each row -/

namespace CrashRow

/-- With no write done the record's cells are the old ones. -/
theorem agree (h : CrashRow m m' src a n 0) (hn : n ≤ src.length) (hx : InRecord a n x) :
    Memory.read m' x = Memory.read m x := by
  obtain ⟨hlead, hpayload, htrail, -⟩ := h
  obtain rfl | rfl | ⟨i, hi, rfl⟩ : x = a ∨ x = a + n + 1 ∨ ∃ i < n, x = a + 1 + i := by
    by_cases hguard : x = a ∨ x = a + n + 1
    · omega
    · exact .inr (.inr ⟨x - (a + 1), by omega, by omega⟩)
  · exact hlead
  · exact htrail
  · exact hpayload i hi (Nat.lt_of_lt_of_le hi hn)

/-- From the placeholder to the last payload byte the guards are equal. -/
theorem not_valid (h : CrashRow m m' src a n k) (hk1 : 1 ≤ k) (hk : k ≤ n + 1) : ¬ValidRecord m' a n := by
  obtain ⟨hlead, -, htrail, -⟩ := h
  rw [if_pos hk] at hlead
  rw [if_neg (by omega), if_pos (by omega)] at htrail
  exact not_validRecord_of_guards_eq (hlead.trans htrail.symm)

/-- With all payload bytes written the payload is the new one. -/
theorem payload (h : CrashRow m m' src a n k) (hn : n ≤ src.length) (hk : n + 1 ≤ k) : payloadOf m' a n = src.take n := by
  obtain ⟨-, hpayload, -⟩ := h
  refine List.ext_getElem (by simp [hn]) fun i hi _ => ?_
  rw [payloadOf_length] at hi
  have hcell := hpayload i hi (Nat.lt_of_lt_of_le hi hn)
  rw [if_pos (by omega)] at hcell
  rw [List.getElem_take, ← hcell]
  simp [payloadOf]

/-- With the leading guard written as well, the old leading byte in the trailing cell decides. -/
theorem valid_iff (h : CrashRow m m' src a n (n + 2)) (hn : n ≤ src.length) :
    ValidRecord m' a n ↔ Memory.read m a = ~~~(crc8 (src.take n)) := by
  have hpayload := h.payload hn (Nat.le_succ _)
  obtain ⟨hlead, -, htrail, -⟩ := h
  rw [if_neg (by omega)] at hlead
  rw [if_neg (by omega), if_pos (Nat.le_refl _)] at htrail
  rw [ValidRecord, hpayload, hlead, htrail]
  exact and_iff_right rfl

theorem valid (h : CrashRow m m' src a n (n + 3)) (hn : n ≤ src.length) : ValidRecord m' a n := by
  have hpayload := h.payload hn (by omega)
  obtain ⟨hlead, -, htrail, -⟩ := h
  rw [if_neg (by omega)] at hlead
  rw [if_neg (by omega), if_neg (by omega)] at htrail
  rw [ValidRecord, hpayload, hlead, htrail]
  exact ⟨rfl, rfl⟩

end CrashRow

/-- A read after the power loss answers by the row that was left: the quiet core takes the host's buffer and then its word. -/
theorem runSteps_read_after_cut {d : List Byte} {ms : List HostMove} (hi : t.phase = .idle) (hc : t.powerCuts = [])
    (hl : legalOperands t.params.widths a n = true) (hf : t.RecordFits a n) (hd : n ≤ d.length)
    (hm : t.hostMoves = .setDest d :: .issue (encode t.params.widths (.rdrec a n)) :: ms) :
    ∃ l v, runSteps l t = .next v ∧ v.phase = .idle ∧ v.hostMoves = ms ∧ v.powerCuts = [] ∧
      (ValidRecord t.store a n →
        v.responses = t.responses ++ [0x0000#16] ∧ v.dst = payloadOf t.store a n ++ d.drop n) ∧
      (¬ValidRecord t.store a n → v.responses = t.responses ++ [0x0100#16] ∧ v.dst = d) := by
  have hdest : step t = .next (((t.putDst d).putMoves ms).issue (encode t.params.widths (.rdrec a n))) :=
    (step_no_cuts hc).trans (poweredStep_setDest hi hm)
  obtain ⟨l, v, -, hread, hv, -, -, hmoves, -, hvalid, hinvalid⟩ :=
    rdrecNetEffect ((t.putDst d).putMoves ms) a n ⟨hi, hc⟩ hl hf hd
  have hcuts : v.powerCuts = [] := runSteps_powerCuts_nil (s := ((t.putDst d).putMoves ms).issue _) hc hread
  exact ⟨l + 1, v, (runSteps_succ hdest).trans hread, hv, hmoves, hcuts, hvalid, hinvalid⟩

/-- Settles O44: each row says whether the record it leaves is valid, and with which payload. -/
theorem tornWriteNeverYieldsAMixture : Obligations.TornWriteNeverYieldsAMixture := by
  intro s a n j torn d ms hi hc hatomic hwf hl hf hn hd hj1 hj hm k old p before
  obtain ⟨t, hrun, hidle, hcuts, hrow, ⟨-, -, hmoves, hparams⟩, hr⟩ :=
    runSteps_wrrec_cut (s := s.putMoves (.setDest d :: .issue (encode s.params.widths (.rdrec a n)) :: ms))
      hi hc hatomic hwf hl hf hn hj1 hj
  rw [putMoves_params, ← eq_issue hm] at hrun
  rw [putMoves_params] at hparams
  change CrashRow s.store t.store s.src a n k at hrow
  change t.responses = before at hr
  obtain ⟨l, v, hread, hv, hvmoves, hvcuts, hvalid, hinvalid⟩ := runSteps_read_after_cut (d := d) (ms := ms) hidle hcuts
    (hparams ▸ hl) (by rw [State.RecordFits, hparams]; exact hf) hd (hparams ▸ hmoves)
  rw [hr] at hvalid hinvalid
  refine ⟨_, v, (runSteps_add hrun).trans hread, hv, hvmoves, hvcuts, fun hk hold => ?_, fun hk hold => ?_,
    fun hk1 hk2 => hinvalid (hrow.not_valid hk1 hk2), fun hk hne => ?_, fun hk heq => ?_, fun hk => ?_⟩
  · rw [hk] at hrow
    have hpayload : payloadOf t.store a n = payloadOf s.store a n :=
      payloadOf_congr fun i hi => hrow.agree hn (x := a + 1 + i) (by omega)
    exact hpayload ▸ hvalid (validRecord_of_agree (fun x hx => hrow.agree hn hx) hold)
  · rw [hk] at hrow
    exact hinvalid fun hnew => hold (validRecord_of_agree (fun x hx => (hrow.agree hn hx).symm) hnew)
  · rw [hk] at hrow
    exact hinvalid fun hnew => hne ((hrow.valid_iff hn).mp hnew)
  · rw [hk] at hrow
    have hpayload : payloadOf t.store a n = p := hrow.payload hn (Nat.le_succ _)
    exact hpayload ▸ hvalid ((hrow.valid_iff hn).mpr heq)
  · rw [hk] at hrow
    have hpayload : payloadOf t.store a n = p := hrow.payload hn (by omega)
    exact hpayload ▸ hvalid (hrow.valid hn)

end Sys2Proof.Machine
end
